-- ==== Sys2Proof/Word.lean ====
section
/-! DEFINITION. The words of the BitVector block: bytes of the register array and
32-bit words of the command and response ports (R8, R10, R60). -/

namespace Sys2Proof

/-- One byte of the register array (R8: byte width 8 bits). -/
abbrev Byte := BitVec 8

/-- One word of the command or of the response port (R60: every word is 32 bits). -/
abbrev Word := BitVec 32

end Sys2Proof
end

