-- ==== Sys2Proof/Syntax.lean ====
section
/-! DEFINITION. The eighteen commands of the BVR-1 command set (R3, R66), with their
operands as R63 to R65 and R68 assemble them. One constructor per row of the opcode
table. -/

namespace Sys2Proof

/-- A complete command: what its words say, padding aside. -/
inductive Instr where
  /-- NEW (0x01, format D32, R101): `d0` is the operand word, read as a signed bit count. -/
  | new (d0 : Word)
  /-- LDU32 (0x02, format D32, R102): a 32-bit seed. -/
  | ldu32 (seed : Word)
  /-- LDU64 (0x03, format D64, R103): a 64-bit seed. -/
  | ldu64 (seed : BitVec 64)
  /-- SET (0x10, format I, R121): a 24-bit bit index. -/
  | set (i : BitVec 24)
  /-- CLR (0x11, format I, R122): a 24-bit bit index. -/
  | clr (i : BitVec 24)
  /-- FLIP (0x12, format I, R123): a 24-bit bit index. -/
  | flip (i : BitVec 24)
  /-- TEST (0x13, format I, R124): a 24-bit bit index. -/
  | test (i : BitVec 24)
  /-- CLRALL (0x20, format N, R141). -/
  | clrall
  /-- SETALL (0x21, format N, R142). -/
  | setall
  /-- NOT (0x22, format N, R143). -/
  | not
  /-- AND (0x30, format M, R161): the mask bytes, byte 0 first. -/
  | and (mask : List Byte)
  /-- OR (0x31, format M, R162): the mask bytes, byte 0 first. -/
  | or (mask : List Byte)
  /-- XOR (0x32, format M, R163): the mask bytes, byte 0 first. -/
  | xor (mask : List Byte)
  /-- RDU32 (0x40, format N, R181). -/
  | rdu32
  /-- RDU32S (0x41, format N, R182). -/
  | rdu32s
  /-- RDU64 (0x42, format N, R183). -/
  | rdu64
  /-- RDU64S (0x43, format N, R184). -/
  | rdu64s
  /-- SIZE (0x50, format N, R200). -/
  | size
deriving DecidableEq, Repr

end Sys2Proof
end

