-- ==== Sys2Proof/WellFormed.lean ====
section
/-! DEFINITION. Which commands can be sent. Every index, count and seed fits its field
by its type; a mask is sendable when its length fits the 24-bit mask-length field
(R8, R65). -/

namespace Sys2Proof

/-- A mask operand is at most `2^24 - 1` bytes long (R65). -/
def maskFits (mask : List Byte) : Bool := decide (mask.length < 2 ^ 24)

/-- The command has an encoding. -/
def Instr.wellFormed : Instr → Bool
  | .new _ => true
  | .ldu32 _ => true
  | .ldu64 _ => true
  | .set _ => true
  | .clr _ => true
  | .flip _ => true
  | .test _ => true
  | .clrall => true
  | .setall => true
  | .not => true
  | .and mask => maskFits mask
  | .or mask => maskFits mask
  | .xor mask => maskFits mask
  | .rdu32 => true
  | .rdu32s => true
  | .rdu64 => true
  | .rdu64s => true
  | .size => true

end Sys2Proof
end

