-- ==== Sys2Proof/Decode.lean ====
section
/-! DEFINITION. The decoder of the command stream, total on every word list, and after
it the encoder, both from the tables of 30_encoding.md (R60 to R71). -/

namespace Sys2Proof

/-! ### Fields of a word -/

/-- OP, bits 7:0 of a command word (R61). -/
def opField (w : Word) : BitVec 8 := w.extractLsb' 0 8

/-- ARG, bits 31:8 of a command word (R61). -/
def argField (w : Word) : BitVec 24 := w.extractLsb' 8 24

/-- The four bytes of a data word, byte 0 in the low 8 bits (R44, R65). -/
def wordBytes (w : Word) : List Byte :=
  [w.extractLsb' 0 8, w.extractLsb' 8 8, w.extractLsb' 16 8, w.extractLsb' 24 8]

/-- How many data words carry a mask of `mlen` bytes: `ceil(mlen/4)` (R65). -/
def maskWords (mlen : Nat) : Nat := (mlen + 3) / 4

/-- The mask bytes `m[0..mlen-1]` that data words carry; the padding bytes of the last
word are dropped (R65). -/
def unpackMask (mlen : Nat) (data : List Word) : List Byte :=
  (data.flatMap wordBytes).take mlen

/-- The 64-bit operand `D1 * 2^32 + D0` of format D64: low word first (R64). -/
def joinSeed (d0 d1 : Word) : BitVec 64 := d1 ++ d0

/-! ### The opcode map -/

/-- What follows the opcode, per format: N (R62), I (R63), D32 and D64 (R64), M (R65).
Each says which command its operand makes. -/
inductive Shape where
  /-- Format N: no operand, ARG reserved. -/
  | n (i : Instr)
  /-- Format I: ARG is a bit index. -/
  | i (f : BitVec 24 → Instr)
  /-- Format D32: ARG reserved, one data word. -/
  | d32 (f : Word → Instr)
  /-- Format D64: ARG reserved, two data words. -/
  | d64 (f : BitVec 64 → Instr)
  /-- Format M: ARG is the mask length, `ceil(mlen/4)` data words. -/
  | m (f : List Byte → Instr)

/-- The opcode map of R66; every other OP is reserved (R69). -/
def shapeOf (op : BitVec 8) : Option Shape :=
  match op with
  | 0x01#8 => some (.d32 .new)
  | 0x02#8 => some (.d32 .ldu32)
  | 0x03#8 => some (.d64 .ldu64)
  | 0x10#8 => some (.i .set)
  | 0x11#8 => some (.i .clr)
  | 0x12#8 => some (.i .flip)
  | 0x13#8 => some (.i .test)
  | 0x20#8 => some (.n .clrall)
  | 0x21#8 => some (.n .setall)
  | 0x22#8 => some (.n .not)
  | 0x30#8 => some (.m .and)
  | 0x31#8 => some (.m .or)
  | 0x32#8 => some (.m .xor)
  | 0x40#8 => some (.n .rdu32)
  | 0x41#8 => some (.n .rdu32s)
  | 0x42#8 => some (.n .rdu64)
  | 0x43#8 => some (.n .rdu64s)
  | 0x50#8 => some (.n .size)
  | _ => none

/-! ### Decoding -/

/-- Why a command word is illegal. -/
inductive Illegal where
  /-- OP is not in the opcode map (R69). -/
  | reservedOp
  /-- OP is of format N, D32 or D64 and ARG is not 0 (R70). -/
  | nonzeroArg
deriving DecidableEq, Repr

/-- What the words received so far spell. -/
inductive Decoded where
  /-- The command word `w` is illegal, whatever follows it (R69, R70). -/
  | illegal (why : Illegal) (w : Word)
  /-- Words of the command are still missing (R67). -/
  | incomplete
  /-- A complete command and the words after it (R67). -/
  | complete (i : Instr) (rest : List Word)
deriving DecidableEq, Repr

/-- Decode the data words of a legal command word by its format (R62 to R65, R68). -/
def decodeShape (shape : Shape) (w : Word) (data : List Word) : Decoded :=
  match shape with
  | .n i => if argField w = 0 then .complete i data else .illegal .nonzeroArg w
  | .i f => .complete (f (argField w)) data
  | .d32 f =>
    if argField w = 0 then
      match data with
      | d0 :: rest => .complete (f d0) rest
      | [] => .incomplete
    else .illegal .nonzeroArg w
  | .d64 f =>
    if argField w = 0 then
      match data with
      | d0 :: d1 :: rest => .complete (f (joinSeed d0 d1)) rest
      | _ => .incomplete
    else .illegal .nonzeroArg w
  | .m f =>
    let n := maskWords (argField w).toNat
    if data.length < n then .incomplete
    else .complete (f (unpackMask (argField w).toNat (data.take n))) (data.drop n)

/-- Decode the start of a command stream: the first word is a command word, and its OP
and ARG alone say how many data words belong to it (R67). -/
def decode : List Word → Decoded
  | [] => .incomplete
  | w :: data =>
    match shapeOf (opField w) with
    | none => .illegal .reservedOp w
    | some shape => decodeShape shape w data

/-- How many words the command that starts with `w` has, the command word included;
`none` for an illegal command word (R67, R69, R70). -/
def commandLength (w : Word) : Option Nat :=
  match shapeOf (opField w) with
  | none => none
  | some (.n _) => if argField w = 0 then some 1 else none
  | some (.i _) => some 1
  | some (.d32 _) => if argField w = 0 then some 2 else none
  | some (.d64 _) => if argField w = 0 then some 3 else none
  | some (.m _) => some (1 + maskWords (argField w).toNat)

/-! ### Encoding -/

/-- The opcode of each command (R66). -/
def Instr.opcode : Instr → BitVec 8
  | .new _ => 0x01#8
  | .ldu32 _ => 0x02#8
  | .ldu64 _ => 0x03#8
  | .set _ => 0x10#8
  | .clr _ => 0x11#8
  | .flip _ => 0x12#8
  | .test _ => 0x13#8
  | .clrall => 0x20#8
  | .setall => 0x21#8
  | .not => 0x22#8
  | .and _ => 0x30#8
  | .or _ => 0x31#8
  | .xor _ => 0x32#8
  | .rdu32 => 0x40#8
  | .rdu32s => 0x41#8
  | .rdu64 => 0x42#8
  | .rdu64s => 0x43#8
  | .size => 0x50#8

/-- The ARG field of each command: the index of format I, the mask length of format M,
0 elsewhere (R62 to R65). A mask too long to send: DESIGN CHOICE, log entry 14. -/
def Instr.arg : Instr → BitVec 24
  | .new _ => 0#24
  | .ldu32 _ => 0#24
  | .ldu64 _ => 0#24
  | .set i => i
  | .clr i => i
  | .flip i => i
  | .test i => i
  | .clrall => 0#24
  | .setall => 0#24
  | .not => 0#24
  | .and mask => BitVec.ofNat 24 mask.length
  | .or mask => BitVec.ofNat 24 mask.length
  | .xor mask => BitVec.ofNat 24 mask.length
  | .rdu32 => 0#24
  | .rdu32s => 0#24
  | .rdu64 => 0#24
  | .rdu64s => 0#24
  | .size => 0#24

/-- The command word `W`: ARG in bits 31:8, OP in bits 7:0 (R61). -/
def Instr.commandWord (i : Instr) : Word := i.arg ++ i.opcode

/-- A data word from its four bytes, byte 0 in the low 8 bits (R65). -/
def packWord (b0 b1 b2 b3 : Byte) : Word := (b3 ++ b2) ++ (b1 ++ b0)

/-- The data words of a mask; padding bytes of the last word are 0, as the assembler of
R72 writes them. -/
def packMask : List Byte → List Word
  | [] => []
  | [b0] => [packWord b0 0 0 0]
  | [b0, b1] => [packWord b0 b1 0 0]
  | [b0, b1, b2] => [packWord b0 b1 b2 0]
  | b0 :: b1 :: b2 :: b3 :: rest => packWord b0 b1 b2 b3 :: packMask rest
termination_by structural mask => mask

/-- The data words of each command (R64, R65). -/
def Instr.dataWords : Instr → List Word
  | .new d0 => [d0]
  | .ldu32 seed => [seed]
  | .ldu64 seed => [seed.extractLsb' 0 32, seed.extractLsb' 32 32]
  | .set _ => []
  | .clr _ => []
  | .flip _ => []
  | .test _ => []
  | .clrall => []
  | .setall => []
  | .not => []
  | .and mask => packMask mask
  | .or mask => packMask mask
  | .xor mask => packMask mask
  | .rdu32 => []
  | .rdu32s => []
  | .rdu64 => []
  | .rdu64s => []
  | .size => []

/-- The words of a command, the command word first (R60). -/
def encode (i : Instr) : List Word := i.commandWord :: i.dataWords

/-! ### The opcode table's words -/

/-- The first `n` 32-bit words of a number whose bit 0 is the least significant bit of
the first word. -/
def splitWords : Nat → Nat → List Word
  | 0, _ => []
  | n + 1, w => BitVec.ofNat 32 w :: splitWords n (w / 2 ^ 32)

/-- The words of the command whose low `nbits` bits are those of `w` and whose other
bits are 0; an illegal command word stands alone (R67, R69). -/
def tableWords (nbits w : Nat) : List Word :=
  splitWords ((commandLength (BitVec.ofNat 32 (w % 2 ^ nbits))).getD 1) (w % 2 ^ nbits)

/-- The command the decoder reads from a row of the opcode table. -/
def decodeTableWord (nbits w : Nat) : Option Instr :=
  match decode (tableWords nbits w) with
  | .complete i _ => some i
  | .incomplete => none
  | .illegal _ _ => none

end Sys2Proof
end

