-- ==== Sys2Proof/Machine/Memory.lean ====
section
/-! DEFINITION. The register array ARR (R21) as a list of (byte index, byte) pairs in
one canonical form, and the accesses of R11. -/

namespace Sys2Proof.Machine

/-- ARR: the bytes that differ from what an unlisted byte reads as, by rising index. -/
abbrev Memory := List Host.Cell

/-- What a byte of ARR that nothing has written reads as. The spec leaves it unspecified
and unobservable (R36, U6). DESIGN CHOICE, log entry 2: zero. -/
def Memory.unlisted : Byte := 0x00#8

/-- Read byte `a`: `ARR[a]` (R11). -/
def Memory.read : Memory → Nat → Byte
  | [], _ => Memory.unlisted
  | c :: m, a => if c.1 = a then c.2 else Memory.read m a

/-- The array without its entry for byte `a`. -/
def Memory.without (m : Memory) (a : Nat) : Memory := m.filter (fun c => c.1 != a)

/-- The array with an entry for byte `a`, at its place in the rising order. -/
def Memory.insertCell : Memory → Nat → Byte → Memory
  | [], a, v => [(a, v)]
  | c :: m, a, v => if a < c.1 then (a, v) :: c :: m else c :: Memory.insertCell m a v

/-- Write byte `a`: `ARR[a] <- v` (R11). Writing what an unlisted byte reads as removes
the entry, so that equal arrays are equal lists. -/
def Memory.write (m : Memory) (a : Nat) (v : Byte) : Memory :=
  if v = Memory.unlisted then m.without a else (m.without a).insertCell a v

/-- `for k in 0 .. n-1: ARR[k] <- f k`. -/
def Memory.writeAll (m : Memory) (f : Nat → Byte) : Nat → Memory
  | 0 => m
  | n + 1 => (Memory.writeAll m f n).write n (f n)

/-- `MemRead(0, n)`: the little-endian integer of the first `n` bytes (R11, R40). -/
def Memory.memRead (m : Memory) : Nat → Nat
  | 0 => 0
  | n + 1 => Memory.memRead m n + (m.read n).toNat * 2 ^ (8 * n)

/-- `MemWrite(0, n, v)`: the first `n` bytes become the low `n` bytes of `v`,
little-endian (R11, R40). -/
def Memory.memWrite (m : Memory) (n v : Nat) : Memory :=
  m.writeAll (fun k => BitVec.ofNat 8 (v / 2 ^ (8 * k))) n

/-- The canonical form: indices strictly rising, no entry equal to what an unlisted byte
reads as. -/
abbrev Memory.wf (m : Memory) : Prop :=
  m.Pairwise (fun c d => c.1 < d.1) ∧ ∀ c ∈ m, c.2 ≠ Memory.unlisted

end Sys2Proof.Machine
end

