-- ==== Sys2Proof/Machine/State.lean ====
section
/-! DEFINITION. The state of the block (R36) with its two ports, the state after reset
(R260), and the reasons a step can stop. -/

namespace Sys2Proof.Machine

/-- One thing the host does to the block (R233). -/
inductive HostEvent where
  /-- The host offers a word on the command port. -/
  | word (w : Word)
  /-- The host asserts the reset input. -/
  | reset
deriving DecidableEq, Repr

/-- The block's state. The first seven fields are the spec's (R36); the last two are the
model's own, the two ends of the ports of R233. -/
structure State where
  /-- ARR, the register array (R21). -/
  arr : Memory
  /-- LEN, the byte-length register (R22). -/
  len : BitVec 22
  /-- STATUS.VALID: an instance exists (R26). -/
  valid : Bool
  /-- STATUS.HALT: a fault has halted the block (R27). -/
  halt : Bool
  /-- STATUS.CAUSE: the cause of that fault (R28). -/
  cause : BitVec 4
  /-- INFO: what the latest fault or error recorded (R29). -/
  info : BitVec 32
  /-- RXBUF: the words of a command not yet complete (R30). -/
  rxbuf : List Word
  /-- What the host will do, in order; not the block's state (R37). DESIGN CHOICE, log
  entry 3. -/
  hostIn : List HostEvent
  /-- The response words emitted so far, in order (R78). DESIGN CHOICE, log entry 4. -/
  respOut : List Word
deriving DecidableEq, Repr

/-- The block after reset (R36, R260): every field the value R36 states; ARR, whose
contents R36 leaves unspecified, lists no byte (DESIGN CHOICE, log entry 2); the ports are idle. -/
def State.reset : State where
  arr := []
  len := 0#22
  valid := false
  halt := false
  cause := 0#4
  info := 0#32
  rxbuf := []
  hostIn := []
  respOut := []

/-- Why the block has no step. -/
inductive Fault where
  /-- `STATUS.HALT = 1` and the host asserts no reset: "a stuck, quiescent state" (R227).
  Raised by `step` on a halted block and by every meaning asked to run on one. Safe: the
  block does nothing there. The faults of R221 are not this: they are next states. -/
  | halted
deriving DecidableEq, Repr

/-- Why an instruction has no meaning. -/
inductive Refusal where
  /-- Raised by an arm of `exec` whose instruction has no meaning yet; no arm does. Safe. -/
  | notModelled (mnemonic : String)
deriving DecidableEq, Repr

end Sys2Proof.Machine
end

