-- ==== Sys2Proof/Machine/Flags.lean ====
section
/-! DEFINITION. The block has no condition flags (R32). This file holds what it has in
their place: the cause codes (R221), the STATUS register (R25) and the response word,
which reports them (R76). -/

namespace Sys2Proof.Machine

/-- The causes of R221. Codes 7 to 15 are reserved and never emitted. -/
inductive Cause where
  /-- Reserved OP or nonzero reserved ARG; a fault. -/
  | illegalCmd
  /-- No instance exists; a fault. -/
  | noInstance
  /-- A bit index past the vector; a fault. -/
  | indexRange
  /-- An unchecked read of a short vector; a fault. -/
  | shortRead
  /-- NEW with a bit count that is not positive; an error. -/
  | badLength
  /-- NEW past the array's capacity; an error. -/
  | capacity
deriving DecidableEq, Repr

/-- The cause code (R221). -/
def Cause.code : Cause → BitVec 4
  | .illegalCmd => 1#4
  | .noInstance => 2#4
  | .indexRange => 3#4
  | .shortRead => 4#4
  | .badLength => 5#4
  | .capacity => 6#4

/-- The outcome a response reports (R76, R220). -/
inductive Kind where
  /-- The command ran to its end. -/
  | ok
  /-- The command was rejected and the block runs on. -/
  | error
  /-- The command faulted and the block is halted. -/
  | fault
deriving DecidableEq, Repr

/-- KIND, bits 1:0 of a response word; 3 is never emitted (R76). -/
def Kind.code : Kind → BitVec 2
  | .ok => 0#2
  | .error => 1#2
  | .fault => 2#2

/-- The response word: KIND, VALID, a zero, CAUSE, OP, sixteen zeros, from bit 0 up (R76). -/
def responseWord (kind : Kind) (valid : Bool) (cause : BitVec 4) (op : BitVec 8) : Word :=
  0#16 ++ op ++ cause ++ 0#1 ++ BitVec.ofBool valid ++ kind.code

/-- The STATUS register: CAUSE in bits 7:4, hardwired zeros in 3:2, HALT in bit 1, VALID
in bit 0 (R25). Its fields are what State holds: DEDUCED, log entry 12. -/
def State.status (s : State) : BitVec 8 :=
  s.cause ++ 0#2 ++ BitVec.ofBool s.halt ++ BitVec.ofBool s.valid

end Sys2Proof.Machine
end

