-- ==== Sys2Proof/Machine/Operands.lean ====
section
/-! DEFINITION. Operand forms: how a command turns its operand into byte indices, bit
offsets, counts and mask bytes (R24, R68, R101, R120, R160). -/

namespace Sys2Proof.Machine

/-- `LEN` as a number. -/
def State.length (s : State) : Nat := s.len.toNat

/-- The payload word `zext_32(LEN)` (R77, R221). -/
def State.lenWord (s : State) : Word := s.len.setWidth 32

/-- The byte a bit index names: `k = i / 8` (R120). -/
def byteIndex (i : BitVec 24) : Nat := i.toNat / 8

/-- The bit a bit index names within its byte: `b = i % 8`, 0 least significant (R120). -/
def bitOffset (i : BitVec 24) : Nat := i.toNat % 8

/-- `1 << b` as a byte (R121). -/
def bitMask (i : BitVec 24) : Byte := 1#8 <<< bitOffset i

/-- `zext_32(i)`, what INDEX_RANGE records (R120, R221). -/
def indexWord (i : BitVec 24) : Word := i.setWidth 32

/-- NEW's bit count `n = sext_32(D0)` (R68). -/
def bitCount (d0 : Word) : Int := d0.toInt

/-- NEW's byte count `nb = (n + 7) / 8` for a positive count `n` (R101, R104). -/
def byteCount (d0 : Word) : Nat := ((bitCount d0).toNat + 7) / 8

/-- The mask byte at `idx`: `m[idx]` when `idx < mlen`, else `0x00`, "a missing mask byte
is zero" (R160, R166). -/
def maskByte (mask : List Byte) (idx : Nat) : Byte := mask.getD idx 0x00#8

/-- Bit `i` of the vector: bit `i % 8` of byte `i / 8` (R24). -/
def State.bit (s : State) (i : Nat) : Bool := (s.arr.read (i / 8)).getLsbD (i % 8)

end Sys2Proof.Machine
end

