-- ==== Sys2Proof/Machine/Ops.lean ====
section
/-! DEFINITION. The operations every command is made of: respond, raise a fault, reject
with an error, reset, and the checks of R223. -/

namespace Sys2Proof.Machine

/-- What a step of the block can answer. -/
abbrev Result := Host.Outcome State Fault Refusal

/-! ### Named updates of the state -/

/-- New contents of ARR; nothing else changes. -/
def State.withArr (s : State) (arr : Memory) : State := { s with arr := arr }

/-- A new instance of `nb` bytes: `LEN <- nb`, `STATUS.VALID <- 1` (R101 to R103). -/
def State.withInstance (s : State) (arr : Memory) (nb : Nat) : State :=
  { s with arr := arr, len := BitVec.ofNat 22 nb, valid := true }

/-- What is still to come from the host. -/
def State.withHostIn (s : State) (events : List HostEvent) : State := { s with hostIn := events }

/-- The words received of the current command (R67). -/
def State.withRxbuf (s : State) (words : List Word) : State := { s with rxbuf := words }

/-! ### Ending a command -/

/-- `respond(payload...)`: the command is done, RXBUF is emptied and the OK response with
its payload leaves (R11, R67, R76, R77). `w` is the command word answered. VALID is read from
the state the command has made: DEDUCED, log entry 11. -/
def respond (w : Word) (payload : List Word) (s : State) : State :=
  { s with
    rxbuf := []
    respOut := s.respOut ++ responseWord .ok s.valid 0#4 (opField w) :: payload }

/-- TAKING A FAULT: `raise Fault(cause, info)` (R224). HALT is set, CAUSE and INFO are
recorded, RXBUF is emptied and the FAULT response leaves; ARR, LEN and VALID keep their
values. There is no return from it but reset (R228). -/
def raiseFault (cause : Cause) (info w : Word) (s : State) : State :=
  { s with
    halt := true
    cause := cause.code
    info := info
    rxbuf := []
    respOut := s.respOut ++ [responseWord .fault s.valid cause.code (opField w), info] }

/-- `reject Error(cause, info)` (R225). INFO is recorded, RXBUF is emptied and the ERROR
response leaves; the block runs on. -/
def rejectError (cause : Cause) (info w : Word) (s : State) : State :=
  { s with
    info := info
    rxbuf := []
    respOut := s.respOut ++ [responseWord .error s.valid cause.code (opField w), info] }

/-- The reset input (R260, R261), the only way out of a fault (R228): every field of R36
takes its reset value, ARR is not reset (kept: DEDUCED, log entry 9), no response is emitted
and those already emitted stay. -/
def resetBlock (s : State) : State :=
  { State.reset with arr := s.arr, hostIn := s.hostIn, respOut := s.respOut }

/-! ### The checks of R223, in its order -/

/-- R223 check 1: "no command executes while the block is halted" (R227, R228).
That a meaning then answers the stop is DEDUCED, log entry 13. -/
def whileRunning (s : State) (run : Result) : Result :=
  if s.halt then .fault .halted else run

/-- R223 checks 1 and 3: the command needs an instance, else NO_INSTANCE with
`INFO = W` (R26, R120, R140, R160, R180, R200). -/
def withInstanceOf (w : Word) (s : State) (run : Result) : Result :=
  whileRunning s (if s.valid then run else .next (raiseFault .noInstance w w s))

/-- R223 checks 1, 3 and 4 for a per-bit command: the index must lie in the vector, else
INDEX_RANGE with `INFO = i` (R120). -/
def withBitIndex (w : Word) (i : BitVec 24) (s : State) (run : Result) : Result :=
  withInstanceOf w s
    (if i.toNat < 8 * s.length then run else .next (raiseFault .indexRange (indexWord i) w s))

/-- R223 checks 1, 3 and 4 for an unchecked read of `n` bytes: the vector must be that
long, else SHORT_READ with `INFO = LEN` (R181, R183). -/
def withBytes (n : Nat) (w : Word) (s : State) (run : Result) : Result :=
  withInstanceOf w s
    (if s.length < n then .next (raiseFault .shortRead s.lenWord w s) else run)

/-! ### What the families share -/

/-- Change one bit's byte: `ARR[k] <- f ARR[k]` after the checks of R120, no payload. -/
def updateBit (w : Word) (i : BitVec 24) (f : Byte → Byte) (s : State) : Result :=
  withBitIndex w i s
    (.next (respond w []
      (s.withArr (s.arr.write (byteIndex i) (f (s.arr.read (byteIndex i)))))))

/-- Change every byte of the vector: `for k in 0 .. LEN-1: ARR[k] <- f k ARR[k]`, no
payload (R140, R160). -/
def updateAll (w : Word) (f : Nat → Byte → Byte) (s : State) : Result :=
  withInstanceOf w s
    (.next (respond w []
      (s.withArr (s.arr.writeAll (fun k => f k (s.arr.read k)) s.length))))

/-- The two payload words of a 64-bit value: bits 31:0, then bits 63:32 (R77). -/
def payload64 (v : BitVec 64) : List Word := [v.extractLsb' 0 32, v.extractLsb' 32 32]

end Sys2Proof.Machine
end

