-- ==== Sys2Proof/Machine/BitOps.lean ====
section
/-! DEFINITION. SET, CLR, FLIP and TEST (41_bit_ops.md), after the checks of R120. -/

namespace Sys2Proof.Machine

/-- SET `i` (R121): `ARR[k] <- ARR[k] OR (1 << b)`. -/
def execSet (i : BitVec 24) (s : State) : Result :=
  updateBit (Instr.set i).commandWord i (fun v => v ||| bitMask i) s

/-- CLR `i` (R122): `ARR[k] <- ARR[k] AND (NOT (1 << b))`. -/
def execClr (i : BitVec 24) (s : State) : Result :=
  updateBit (Instr.clr i).commandWord i (fun v => v &&& ~~~bitMask i) s

/-- FLIP `i` (R123): `ARR[k] <- ARR[k] XOR (1 << b)`. -/
def execFlip (i : BitVec 24) (s : State) : Result :=
  updateBit (Instr.flip i).commandWord i (fun v => v ^^^ bitMask i) s

/-- TEST `i` (R124): `bit = (ARR[k] >> b) AND 1` is the payload, and no state changes. -/
def execTest (i : BitVec 24) (s : State) : Result :=
  let w := (Instr.test i).commandWord
  withBitIndex w i s
    (.next (respond w
      [((s.arr.read (byteIndex i) >>> bitOffset i) &&& 1#8).setWidth 32] s))

end Sys2Proof.Machine
end

