-- ==== Sys2Proof/Machine/BulkOps.lean ====
section
/-! DEFINITION. CLRALL, SETALL and NOT (42_bulk_ops.md), after the check of R140. -/

namespace Sys2Proof.Machine

/-- CLRALL (R141): every byte of the vector becomes 0x00. -/
def execClrall (s : State) : Result :=
  updateAll Instr.clrall.commandWord (fun _ _ => 0x00#8) s

/-- SETALL (R142): every byte of the vector becomes 0xFF, padding bits included. -/
def execSetall (s : State) : Result :=
  updateAll Instr.setall.commandWord (fun _ _ => 0xFF#8) s

/-- NOT (R143): `ARR[k] <- ARR[k] XOR 0xFF` over the vector. -/
def execNot (s : State) : Result :=
  updateAll Instr.not.commandWord (fun _ v => v ^^^ 0xFF#8) s

end Sys2Proof.Machine
end

