-- ==== Sys2Proof/Config.lean ====
section
/-! DEFINITION. The one open parameter of the block: its capacity `CAP_BYTES`
(R7, decision D2, U8). -/

namespace Sys2Proof

/-- What `CAP_BYTES` exceeds its least value 8 by. FREE VALUE: an uninterpreted
constant, so a statement holds for every capacity R7 admits (`8 <= CAP_BYTES <= 2^21`;
`2097145 = 2^21 - 8 + 1`). DESIGN CHOICE, log entry 1. -/
opaque Config.capExtra : Fin 2097145

/-- `CAP_BYTES`, the capacity of the register array in bytes (R7). -/
def Config.capBytes : Nat := Config.capExtra.val + 8

/-- `CAP_BITS = 8 * CAP_BYTES` (R7). -/
def Config.capBits : Nat := 8 * Config.capBytes

/-- R7's lower bound, which lets LDU64 build its 8-byte vector. -/
theorem Config.eight_le_capBytes : 8 ≤ Config.capBytes := Nat.le_add_left 8 _

/-- R7's upper bound. -/
theorem Config.capBytes_le : Config.capBytes ≤ 2 ^ 21 := by
  have h := Config.capExtra.isLt
  simp only [Config.capBytes]
  omega

end Sys2Proof
end

