-- ==== Sys2Proof/Machine/Construct.lean ====
section
/-! DEFINITION. NEW, LDU32 and LDU64 (40_construction.md). A constructor may run at any
time the block is not halted, whether or not an instance exists (R100). -/

namespace Sys2Proof.Machine

/-- R101 for an array of `cap` bytes. -/
def newWithin (cap : Nat) (d0 : Word) (s : State) : Result :=
  let w := (Instr.new d0).commandWord
  whileRunning s
    (if bitCount d0 ≤ 0 then .next (rejectError .badLength d0 w s)
    else if cap < byteCount d0 then .next (rejectError .capacity d0 w s)
    else .next (respond w []
      (s.withInstance (s.arr.writeAll (fun _ => 0x00#8) (byteCount d0)) (byteCount d0))))

/-- NEW `n` (R101): a zero vector of `ceil(n/8)` bytes. -/
def execNew (d0 : Word) (s : State) : Result := newWithin Config.capBytes d0 s

/-- LDU32 `s` (R102): a 4-byte vector holding the seed, little-endian. -/
def execLdu32 (seed : Word) (s : State) : Result :=
  whileRunning s
    (.next (respond (Instr.ldu32 seed).commandWord []
      (s.withInstance (s.arr.memWrite 4 seed.toNat) 4)))

/-- LDU64 `s` (R103): an 8-byte vector holding the seed, little-endian. -/
def execLdu64 (seed : BitVec 64) (s : State) : Result :=
  whileRunning s
    (.next (respond (Instr.ldu64 seed).commandWord []
      (s.withInstance (s.arr.memWrite 8 seed.toNat) 8)))

end Sys2Proof.Machine
end

