-- ==== Sys2Proof/Machine/Convert.lean ====
section
/-! DEFINITION. RDU32, RDU32S, RDU64 and RDU64S (44_int_conversion.md), after the check
of R180. A read that succeeds changes no state (R48). -/

namespace Sys2Proof.Machine

/-- RDU32 (R181): the first 4 bytes; a vector shorter than 4 bytes is SHORT_READ. -/
def execRdu32 (s : State) : Result :=
  withBytes 4 Instr.rdu32.commandWord s
    (.next (respond Instr.rdu32.commandWord [BitVec.ofNat 32 (s.arr.memRead 4)] s))

/-- RDU32S (R182): the first `min(LEN, 4)` bytes, missing high bytes zero. -/
def execRdu32s (s : State) : Result :=
  withInstanceOf Instr.rdu32s.commandWord s
    (.next (respond Instr.rdu32s.commandWord
      [BitVec.ofNat 32 (s.arr.memRead (min s.length 4))] s))

/-- RDU64 (R183): the first 8 bytes; a vector shorter than 8 bytes is SHORT_READ. -/
def execRdu64 (s : State) : Result :=
  withBytes 8 Instr.rdu64.commandWord s
    (.next (respond Instr.rdu64.commandWord (payload64 (BitVec.ofNat 64 (s.arr.memRead 8))) s))

/-- RDU64S (R184): the first `min(LEN, 8)` bytes, missing high bytes zero. -/
def execRdu64s (s : State) : Result :=
  withInstanceOf Instr.rdu64s.commandWord s
    (.next (respond Instr.rdu64s.commandWord
      (payload64 (BitVec.ofNat 64 (s.arr.memRead (min s.length 8)))) s))

end Sys2Proof.Machine
end

