-- ==== Sys2Proof/Machine/MaskOps.lean ====
section
/-! DEFINITION. AND, OR and XOR (43_mask_ops.md), after the check of R160. -/

namespace Sys2Proof.Machine

/-- AND `m` (R161): `ARR[idx] <- ARR[idx] AND mb(idx)`; bytes past the mask become 0. -/
def execAnd (mask : List Byte) (s : State) : Result :=
  updateAll (Instr.and mask).commandWord (fun idx v => v &&& maskByte mask idx) s

/-- OR `m` (R162): `ARR[idx] <- ARR[idx] OR mb(idx)`; bytes past the mask stay. -/
def execOr (mask : List Byte) (s : State) : Result :=
  updateAll (Instr.or mask).commandWord (fun idx v => v ||| maskByte mask idx) s

/-- XOR `m` (R163): `ARR[idx] <- ARR[idx] XOR mb(idx)`; bytes past the mask stay. -/
def execXor (mask : List Byte) (s : State) : Result :=
  updateAll (Instr.xor mask).commandWord (fun idx v => v ^^^ maskByte mask idx) s

end Sys2Proof.Machine
end

