-- ==== Sys2Proof/Machine/SizeQuery.lean ====
section
/-! DEFINITION. SIZE (45_size.md). -/

namespace Sys2Proof.Machine

/-- SIZE (R200): the byte length of the vector; no state changes. -/
def execSize (s : State) : Result :=
  withInstanceOf Instr.size.commandWord s
    (.next (respond Instr.size.commandWord [s.lenWord] s))

end Sys2Proof.Machine
end

