-- ==== Sys2Proof/Machine/Dispatch.lean ====
section
/-! DEFINITION. One arm per command of R66, each a call of its meaning. -/

namespace Sys2Proof.Machine

def exec (i : Instr) (s : State) : Host.Outcome State Fault Refusal :=
  match i with
  | .new d0 => Sys2Proof.Machine.execNew d0 s
  | .ldu32 seed => Sys2Proof.Machine.execLdu32 seed s
  | .ldu64 seed => Sys2Proof.Machine.execLdu64 seed s
  | .set k => Sys2Proof.Machine.execSet k s
  | .clr k => Sys2Proof.Machine.execClr k s
  | .flip k => Sys2Proof.Machine.execFlip k s
  | .test k => Sys2Proof.Machine.execTest k s
  | .clrall => Sys2Proof.Machine.execClrall s
  | .setall => Sys2Proof.Machine.execSetall s
  | .not => Sys2Proof.Machine.execNot s
  | .and mask => Sys2Proof.Machine.execAnd mask s
  | .or mask => Sys2Proof.Machine.execOr mask s
  | .xor mask => Sys2Proof.Machine.execXor mask s
  | .rdu32 => Sys2Proof.Machine.execRdu32 s
  | .rdu32s => Sys2Proof.Machine.execRdu32s s
  | .rdu64 => Sys2Proof.Machine.execRdu64 s
  | .rdu64s => Sys2Proof.Machine.execRdu64s s
  | .size => Sys2Proof.Machine.execSize s

end Sys2Proof.Machine
end

