-- ==== Sys2Proof/Machine/Fetch.lean ====
section
/-! DEFINITION. What the block does with the next thing the host does: take a word on the
command port, take a reset, or wait (R67, R227, R233, R260). -/

namespace Sys2Proof.Machine

/-- What the block finds at its ports. -/
inductive Fetched where
  /-- The block has taken what there was, and this is its next state. -/
  | took (s : State)
  /-- The last word of command `i` has arrived: it executes in state `s`. -/
  | run (i : Instr) (s : State)
  /-- The block is halted and no reset comes (R227). -/
  | stuck
deriving DecidableEq, Repr

/-- A word moves on the command port. It joins RXBUF; when the words there spell a
complete command it executes, in the step that takes its last word (R67, R47). An illegal
command word faults as soon as it arrives (R69, R70, R223 check 2). -/
def receive (w : Word) (s : State) : Fetched :=
  match decode (s.rxbuf ++ [w]) with
  | .illegal _ commandWord => .took (raiseFault .illegalCmd commandWord commandWord s)
  | .incomplete => .took (s.withRxbuf (s.rxbuf ++ [w]))
  | .complete i _ => .run i (s.withRxbuf (s.rxbuf ++ [w]))

/-- The next thing that happens at the ports. While HALT is 1 the command port takes no
word, whatever the host offers, and only a reset moves the block (R227, R233); the words
the host still offers stay with it (DESIGN CHOICE, log entry 5). With nothing offered the
block waits and keeps all state (R67, R238; DESIGN CHOICE, log entry 6). -/
def fetch (s : State) : Fetched :=
  if s.halt then
    if HostEvent.reset ∈ s.hostIn then
      .took (resetBlock (s.withHostIn (s.hostIn.erase HostEvent.reset)))
    else .stuck
  else
    match s.hostIn with
    | [] => .took s
    | .reset :: rest => .took (resetBlock (s.withHostIn rest))
    | .word w :: rest => receive w (s.withHostIn rest)

/-- Give the last word of a command to the command port and hold the words before it in
RXBUF, so that the next step takes that last word. -/
def placeCommand (words : List Word) (s : State) : State :=
  (s.withRxbuf words.dropLast).withHostIn
    ((words.getLast?.toList.map HostEvent.word) ++ s.hostIn)

end Sys2Proof.Machine
end

