-- ==== Sys2Proof/Machine/Step.lean ====
section
/-! DEFINITION. One step of the block. -/

namespace Sys2Proof.Machine

/-- One step: the block takes one word, or a reset, or waits; the step that takes the last
word of a command executes it whole (R47, R67, R272). That a step is one word is a DESIGN
CHOICE, log entry 10. -/
def step (s : State) : Host.Outcome State Fault Refusal :=
  match fetch s with
  | .took t => .next t
  | .run i t => exec i t
  | .stuck => .fault .halted

/-- `s` with the opcode-table command `w` on the command port: all its words but the last
are in RXBUF and the last is the next the host offers, so that the next step of a block
that is not halted executes it (DESIGN CHOICE, log entry 7). -/
def State.withFetchWord (s : State) (nbits w : Nat) : State :=
  placeCommand (tableWords nbits w) s

end Sys2Proof.Machine
end

