-- ==== Sys2Proof/Machine/Assembler.lean ====
section
/-! DEFINITION. The assembler and disassembler of a command stream (R72, R73): text the
host writes, not the block's state. A line of text is a list of characters. -/

namespace Sys2Proof.Asm

/-! ### The grammar's tokens -/

/-- The pieces of a line (R72). -/
inductive Token where
  /-- A mnemonic or a number. -/
  | word (cs : List Char)
  /-- An opening bracket. -/
  | lbrack
  /-- A closing bracket. -/
  | rbrack
  /-- A comma. -/
  | comma
deriving DecidableEq, Repr

/-- Why a line assembles to no word. -/
inductive AsmError where
  /-- The line's first piece is no mnemonic (R72) and no alias (R73). -/
  | unknownMnemonic
  /-- The operand is missing, too many, or not of the command's form (R72). -/
  | badOperand
  /-- "An operand out of range is an assembly error" (R72). -/
  | outOfRange
deriving DecidableEq, Repr

/-- The characters that separate pieces: blank, tab, carriage return (log entry 8). -/
def isBlank (c : Char) : Bool := c = ' ' || c = '\t' || c = '\r'

/-- The piece collected so far, if any. -/
def flushWord : List Char → List Token
  | [] => []
  | c :: cs => [.word (c :: cs)]

/-- The pieces of a line after the characters `cur` of a piece not yet ended; a semicolon
starts a comment (R72). -/
def tokensFrom : List Char → List Char → List Token
  | cur, [] => flushWord cur
  | cur, c :: cs =>
    if c = ';' then flushWord cur
    else if isBlank c then flushWord cur ++ tokensFrom [] cs
    else if c = '[' then flushWord cur ++ Token.lbrack :: tokensFrom [] cs
    else if c = ']' then flushWord cur ++ Token.rbrack :: tokensFrom [] cs
    else if c = ',' then flushWord cur ++ Token.comma :: tokensFrom [] cs
    else tokensFrom (cur ++ [c]) cs

/-- The pieces of a line. -/
def tokens (line : List Char) : List Token := tokensFrom [] line

/-! ### Numbers -/

/-- The value of a digit in a base of at most 16; either case of a letter (log entry 8). -/
def digitValue (base : Nat) (c : Char) : Option Nat :=
  let v :=
    if '0'.toNat ≤ c.toNat ∧ c.toNat ≤ '9'.toNat then c.toNat - '0'.toNat
    else if 'A'.toNat ≤ c.toNat ∧ c.toNat ≤ 'F'.toNat then c.toNat - 'A'.toNat + 10
    else if 'a'.toNat ≤ c.toNat ∧ c.toNat ≤ 'f'.toNat then c.toNat - 'a'.toNat + 10
    else base
  if v < base then some v else none

/-- The number that digits spell after the digits of `acc`. -/
def digitsFrom (base : Nat) : Nat → List Char → Option Nat
  | acc, [] => some acc
  | acc, c :: cs =>
    match digitValue base c with
    | some v => digitsFrom base (acc * base + v) cs
    | none => none

/-- The number that one digit or more spell. -/
def digits (base : Nat) : List Char → Option Nat
  | [] => none
  | c :: cs => digitsFrom base 0 (c :: cs)

/-- A number of the grammar: `['-'] decimal | '0x' hex` (R72). -/
inductive Number where
  /-- A decimal number with its sign. -/
  | dec (v : Int)
  /-- A hexadecimal literal. -/
  | hex (v : Nat)
deriving DecidableEq, Repr

/-- Read a number (R72). -/
def number : List Char → Option Number
  | '-' :: cs => (digits 10 cs).map (fun n => Number.dec (-(n : Int)))
  | '0' :: 'x' :: cs => (digits 16 cs).map Number.hex
  | cs => (digits 10 cs).map (fun n => Number.dec (n : Int))

/-- The value of a number. -/
def Number.value : Number → Int
  | .dec v => v
  | .hex v => v

/-- Read a number that must lie in `0 .. bound-1` (R72's unsigned operands). -/
def unsignedBelow (bound : Nat) (cs : List Char) : Except AsmError Nat :=
  match number cs with
  | none => .error .badOperand
  | some n =>
    if 0 ≤ n.value ∧ n.value < (bound : Int) then .ok n.value.toNat else .error .outOfRange

/-- Read NEW's operand: a signed decimal in `-2^31 .. 2^31-1`, or a hexadecimal literal
that "is the 32-bit pattern of D0" (R72). -/
def countWord (cs : List Char) : Except AsmError Word :=
  match number cs with
  | none => .error .badOperand
  | some (.dec v) =>
    if -(2 ^ 31 : Int) ≤ v ∧ v < (2 ^ 31 : Int) then .ok (BitVec.ofInt 32 v)
    else .error .outOfRange
  | some (.hex v) => if v < 2 ^ 32 then .ok (BitVec.ofNat 32 v) else .error .outOfRange

/-! ### Byte lists -/

/-- The bytes of a list after its opening bracket, one at least (R72). -/
def bytesFrom : List Token → Except AsmError (List Byte)
  | [.word cs, .rbrack] => (unsignedBelow 256 cs).map (fun b => [BitVec.ofNat 8 b])
  | .word cs :: .comma :: rest =>
    match unsignedBelow 256 cs with
    | .error e => .error e
    | .ok b => (bytesFrom rest).map (fun bs => BitVec.ofNat 8 b :: bs)
  | _ => .error .badOperand

/-- A byte list, possibly empty, of at most `2^24 - 1` bytes (R72). -/
def byteList : List Token → Except AsmError (List Byte)
  | [.lbrack, .rbrack] => .ok []
  | .lbrack :: rest =>
    match bytesFrom rest with
    | .error e => .error e
    | .ok bs => if maskFits bs then .ok bs else .error .outOfRange
  | _ => .error .badOperand

/-! ### Commands -/

/-- The operand a command takes (R72). -/
inductive Form where
  /-- None. -/
  | bare (i : Instr)
  /-- A bit index, `0 .. 2^24-1`. -/
  | index (f : BitVec 24 → Instr)
  /-- NEW's signed number. -/
  | count (f : Word → Instr)
  /-- A seed, `0 .. 2^32-1`. -/
  | seed32 (f : Word → Instr)
  /-- A seed, `0 .. 2^64-1`. -/
  | seed64 (f : BitVec 64 → Instr)
  /-- A byte list. -/
  | bytes (f : List Byte → Instr)

/-- The mnemonics of R66 and the aliases of R73 and R15, in small letters. -/
def nameTable : List (String × Form) :=
  [("new", .count .new), ("ldu32", .seed32 .ldu32), ("ldu64", .seed64 .ldu64),
   ("set", .index .set), ("clr", .index .clr), ("flip", .index .flip),
   ("test", .index .test), ("clrall", .bare .clrall), ("setall", .bare .setall),
   ("not", .bare .not), ("and", .bytes .and), ("or", .bytes .or), ("xor", .bytes .xor),
   ("rdu32", .bare .rdu32), ("rdu32s", .bare .rdu32s), ("rdu64", .bare .rdu64),
   ("rdu64s", .bare .rdu64s), ("size", .bare .size),
   ("from_u32", .seed32 .ldu32), ("from_u64", .seed64 .ldu64), ("clear", .index .clr),
   ("clear_all", .bare .clrall), ("set_all", .bare .setall), ("flip_all", .bare .not),
   ("and_mask", .bytes .and), ("or_mask", .bytes .or), ("xor_mask", .bytes .xor),
   ("to_u32_unchecked", .bare .rdu32), ("to_u32_safe", .bare .rdu32s),
   ("to_u64_unchecked", .bare .rdu64), ("to_u64_safe", .bare .rdu64s),
   ("size_in_bytes", .bare .size)]

/-- A letter in its small form; other characters are left alone. -/
def lower (c : Char) : Char :=
  if 'A'.toNat ≤ c.toNat ∧ c.toNat ≤ 'Z'.toNat then Char.ofNat (c.toNat + 32) else c

/-- The operand form a name stands for; "mnemonics are case-insensitive" (R72), and so
are the aliases (log entry 8). -/
def formOf (name : List Char) : Option Form :=
  (nameTable.find? (fun row => row.1.toList == name.map lower)).map Prod.snd

/-- The command that an operand of a given form makes (R72). -/
def withOperand : Form → List Token → Except AsmError Instr
  | .bare i, [] => .ok i
  | .index f, [.word cs] => (unsignedBelow (2 ^ 24) cs).map (fun n => f (BitVec.ofNat 24 n))
  | .count f, [.word cs] => (countWord cs).map f
  | .seed32 f, [.word cs] => (unsignedBelow (2 ^ 32) cs).map (fun n => f (BitVec.ofNat 32 n))
  | .seed64 f, [.word cs] => (unsignedBelow (2 ^ 64) cs).map (fun n => f (BitVec.ofNat 64 n))
  | .bytes f, ts => (byteList ts).map f
  | _, _ => .error .badOperand

/-- The command that the pieces of a line spell; `none` for a line without one (R72). -/
def parseTokens : List Token → Except AsmError (Option Instr)
  | [] => .ok none
  | .word name :: operand =>
    match formOf name with
    | none => .error .unknownMnemonic
    | some form => (withOperand form operand).map some
  | _ :: _ => .error .unknownMnemonic

/-- Assemble one line to its command; `none` for a line without one (R72). -/
def assembleLine (line : List Char) : Except AsmError (Option Instr) := parseTokens (tokens line)

/-- The words of a program's lines in order; an error emits no word (R72). -/
def assemble : List (List Char) → Except AsmError (List Word)
  | [] => .ok []
  | line :: lines =>
    match assembleLine line, assemble lines with
    | .error e, _ => .error e
    | .ok _, .error e => .error e
    | .ok none, .ok ws => .ok ws
    | .ok (some i), .ok ws => .ok (encode i ++ ws)

/-! ### The disassembler -/

/-- The digit that stands for a value below 16, in capitals. -/
def digitChar (v : Nat) : Char :=
  if v < 10 then Char.ofNat (v + '0'.toNat) else Char.ofNat (v - 10 + 'A'.toNat)

/-- `n` in decimal, in at most `fuel + 1` digits. -/
def decimal : Nat → Nat → List Char
  | 0, n => [digitChar (n % 10)]
  | fuel + 1, n =>
    if n < 10 then [digitChar n] else decimal fuel (n / 10) ++ [digitChar (n % 10)]

/-- `n` in `width` hexadecimal digits. -/
def hexDigits : Nat → Nat → List Char
  | 0, _ => []
  | width + 1, n => hexDigits width (n / 16) ++ [digitChar (n % 16)]

/-- `n` as a hexadecimal literal of `width` digits. -/
def hexLiteral (width n : Nat) : List Char := '0' :: 'x' :: hexDigits width n

/-- A bit index in decimal (R72): below `2^24`, so in at most 8 digits. -/
def showIndex (i : BitVec 24) : List Char := decimal 7 i.toNat

/-- NEW's `n` in decimal with its sign (R72): in at most 10 digits. -/
def showCount (d0 : Word) : List Char :=
  if d0.toInt < 0 then '-' :: decimal 9 d0.toInt.natAbs else decimal 9 d0.toInt.natAbs

/-- The rest of a byte list after its first byte. -/
def showMore : List Byte → List Char
  | [] => [']']
  | b :: bs => ',' :: ' ' :: (hexLiteral 2 b.toNat ++ showMore bs)

/-- A byte list, mask bytes in hexadecimal (R72). -/
def showBytes : List Byte → List Char
  | [] => ['[', ']']
  | b :: bs => '[' :: (hexLiteral 2 b.toNat ++ showMore bs)

/-- A line: the mnemonic in capitals, a blank, the operand (R72). -/
def line (mnemonic : String) (operand : List Char) : List Char :=
  mnemonic.toList ++ ' ' :: operand

/-- The line of text for a command: "a bit index and NEW's `n` in decimal, seeds in
hexadecimal with 8 or 16 digits, and mask bytes in hexadecimal" (R72). -/
def disassemble : Instr → List Char
  | .new d0 => line "NEW" (showCount d0)
  | .ldu32 seed => line "LDU32" (hexLiteral 8 seed.toNat)
  | .ldu64 seed => line "LDU64" (hexLiteral 16 seed.toNat)
  | .set i => line "SET" (showIndex i)
  | .clr i => line "CLR" (showIndex i)
  | .flip i => line "FLIP" (showIndex i)
  | .test i => line "TEST" (showIndex i)
  | .clrall => "CLRALL".toList
  | .setall => "SETALL".toList
  | .not => "NOT".toList
  | .and mask => line "AND" (showBytes mask)
  | .or mask => line "OR" (showBytes mask)
  | .xor mask => line "XOR" (showBytes mask)
  | .rdu32 => "RDU32".toList
  | .rdu32s => "RDU32S".toList
  | .rdu64 => "RDU64".toList
  | .rdu64s => "RDU64S".toList
  | .size => "SIZE".toList

end Sys2Proof.Asm
end

