-- ==== Sys2Proof/Safety.lean ====
section
/-! DEFINITION. What a good run is (R239), the invariant of the block (R37), and the
terms in which statements about commands are written. -/

namespace Sys2Proof.Machine

/-! ### Runs -/

/-- The run has ended well: every word has been taken, RXBUF is empty and the block is not
halted (R239). That a reset still to be asserted keeps the run from having ended is a
DESIGN CHOICE, log entry 16: R239 speaks of words alone. -/
def EndedWell (s : State) : Prop := s.hostIn = [] ∧ s.rxbuf = [] ∧ s.halt = false

/-- The run has ended in a fault (R239): "this is never a good end". -/
def EndedInFault (s : State) : Prop := s.halt = true

/-- The block is waiting for the rest of a command, and the run has not ended (R239). That
a block with a reset still to come is not counted as waiting is a DESIGN CHOICE, log
entry 16. -/
def AwaitingWords (s : State) : Prop := s.hostIn = [] ∧ s.rxbuf ≠ [] ∧ s.halt = false

/-! ### The invariant -/

/-- What every state of a run satisfies. -/
structure BlockInv (s : State) : Prop where
  /-- ARR is in canonical form. -/
  arr_wf : s.arr.wf
  /-- Only bytes `ARR[0]` to `ARR[CAP_BYTES-1]` exist (R21). -/
  arr_below : ∀ c ∈ s.arr, c.1 < Config.capBytes
  /-- `LEN <= CAP_BYTES` (R22, R37). -/
  len_le : s.length ≤ Config.capBytes
  /-- `valid = false -> len = 0` (R37). -/
  len_zero : s.valid = false → s.length = 0
  /-- An instance is never empty (R200). -/
  len_pos : s.valid = true → 0 < s.length
  /-- `halt = false -> cause = 0` (R28, R37). -/
  cause_zero : s.halt = false → s.cause = 0#4
  /-- CAUSE of a halted block is a fault's code, 1 to 4 (R25). -/
  cause_fault : s.halt = true → 1 ≤ s.cause.toNat ∧ s.cause.toNat ≤ 4
  /-- A fault has emptied RXBUF (R224). -/
  halt_rxbuf : s.halt = true → s.rxbuf = []
  /-- RXBUF holds the words of a command not yet complete (R30). -/
  rxbuf_partial : decode s.rxbuf = .incomplete

/-! ### How a command ends -/

/-- The response word of R76: `R = KIND + 4*VALID + 16*CAUSE + 256*OP`. -/
def responseValue (kind valid cause op : Nat) : Word :=
  BitVec.ofNat 32 (kind + 4 * valid + 16 * cause + 256 * op)

/-- From `s` the command ended OK in `t`: the OK response with its payload has left
(R76, VALID as it is after the command), RXBUF is empty, and HALT, CAUSE, INFO and what
the host still offers are as before. Says nothing of ARR, LEN and VALID. -/
def EndsOk (op : Nat) (payload : List Word) (s t : State) : Prop :=
  t.respOut = s.respOut ++ responseValue 0 t.valid.toNat 0 op :: payload ∧
  t.rxbuf = [] ∧ t.hostIn = s.hostIn ∧
  t.halt = s.halt ∧ t.cause = s.cause ∧ t.info = s.info

/-- From `s` the command was rejected in `t` (R225): INFO is recorded, RXBUF is empty, the
ERROR response and INFO have left, and nothing else has changed. -/
def EndsError (cause op : Nat) (info : Word) (s t : State) : Prop :=
  t.respOut = s.respOut ++ [responseValue 1 s.valid.toNat cause op, info] ∧
  t.rxbuf = [] ∧ t.hostIn = s.hostIn ∧
  t.halt = s.halt ∧ t.cause = s.cause ∧ t.info = info ∧
  t.arr = s.arr ∧ t.len = s.len ∧ t.valid = s.valid

/-- From `s` the command faulted in `t` (R224): HALT is set, CAUSE and INFO are recorded,
RXBUF is empty, the FAULT response and INFO have left, and nothing else has changed. -/
def EndsFault (cause op : Nat) (info : Word) (s t : State) : Prop :=
  t.respOut = s.respOut ++ [responseValue 2 s.valid.toNat cause op, info] ∧
  t.rxbuf = [] ∧ t.hostIn = s.hostIn ∧
  t.halt = true ∧ t.cause = BitVec.ofNat 4 cause ∧ t.info = info ∧
  t.arr = s.arr ∧ t.len = s.len ∧ t.valid = s.valid

/-- LEN and VALID are as before. -/
def KeepsInstance (s t : State) : Prop := t.len = s.len ∧ t.valid = s.valid

/-- `t` is the block after a reset in `s` (R260, R261), with `events` still to come. Says
nothing of ARR. -/
def AfterReset (events : List HostEvent) (s t : State) : Prop :=
  t.len = 0#22 ∧ t.valid = false ∧ t.halt = false ∧ t.cause = 0#4 ∧ t.info = 0#32 ∧
  t.rxbuf = [] ∧ t.respOut = s.respOut ∧ t.hostIn = events

/-- From `s`, which runs and has no word of a command in RXBUF, a command word with opcode
`op` and a nonzero ARG raises ILLEGAL_CMD on that word alone (R70). -/
def ArgMustBeZero (op : BitVec 8) (s : State) : Prop :=
  ∀ (w : Word) (rest : List HostEvent), w.extractLsb' 0 8 = op → w.extractLsb' 8 24 ≠ 0#24 →
    s.rxbuf = [] → s.hostIn = .word w :: rest →
    ∃ t, step s = .next t ∧ EndsFault 1 op.toNat w (s.withHostIn rest) t

/-- The two states differ in nothing but bytes of ARR at or past LEN (R23). -/
def SameVector (s t : State) : Prop :=
  s.withArr [] = t.withArr [] ∧ ∀ k, k < s.length → s.arr.read k = t.arr.read k

/-- Two answers that nobody can tell apart if bytes of ARR at or past LEN cannot be seen. -/
def SameAnswer : Result → Result → Prop
  | .next s, .next t => SameVector s t
  | .fault a, .fault b => a = b
  | .refused a, .refused b => a = b
  | .next _, .fault _ => False
  | .next _, .refused _ => False
  | .fault _, .next _ => False
  | .fault _, .refused _ => False
  | .refused _, .next _ => False
  | .refused _, .fault _ => False

/-! ### The tables of 30_encoding.md and 60_exceptions.md -/

/-- The three constructors, "the only commands that may run while `STATUS.VALID = 0`". -/
def isConstructor : Instr → Bool
  | .new _ => true
  | .ldu32 _ => true
  | .ldu64 _ => true
  | .set _ => false
  | .clr _ => false
  | .flip _ => false
  | .test _ => false
  | .clrall => false
  | .setall => false
  | .not => false
  | .and _ => false
  | .or _ => false
  | .xor _ => false
  | .rdu32 => false
  | .rdu32s => false
  | .rdu64 => false
  | .rdu64s => false
  | .size => false

/-- How many payload words an OK response has (R77). -/
def payloadLength : Instr → Nat
  | .new _ => 0
  | .ldu32 _ => 0
  | .ldu64 _ => 0
  | .set _ => 0
  | .clr _ => 0
  | .flip _ => 0
  | .test _ => 1
  | .clrall => 0
  | .setall => 0
  | .not => 0
  | .and _ => 0
  | .or _ => 0
  | .xor _ => 0
  | .rdu32 => 1
  | .rdu32s => 1
  | .rdu64 => 2
  | .rdu64s => 2
  | .size => 1

/-- The fault codes a complete command can raise, and what INFO then records (R221, R222);
ILLEGAL_CMD is raised on a command word, before there is a command. -/
def mayFault (i : Instr) (s : State) (cause : Nat) (info : Word) : Prop :=
  match i with
  | .new _ => False
  | .ldu32 _ => False
  | .ldu64 _ => False
  | .set k => (cause = 2 ∧ info = i.commandWord) ∨ (cause = 3 ∧ info = k.setWidth 32)
  | .clr k => (cause = 2 ∧ info = i.commandWord) ∨ (cause = 3 ∧ info = k.setWidth 32)
  | .flip k => (cause = 2 ∧ info = i.commandWord) ∨ (cause = 3 ∧ info = k.setWidth 32)
  | .test k => (cause = 2 ∧ info = i.commandWord) ∨ (cause = 3 ∧ info = k.setWidth 32)
  | .clrall => cause = 2 ∧ info = i.commandWord
  | .setall => cause = 2 ∧ info = i.commandWord
  | .not => cause = 2 ∧ info = i.commandWord
  | .and _ => cause = 2 ∧ info = i.commandWord
  | .or _ => cause = 2 ∧ info = i.commandWord
  | .xor _ => cause = 2 ∧ info = i.commandWord
  | .rdu32 => (cause = 2 ∧ info = i.commandWord) ∨ (cause = 4 ∧ info = s.len.setWidth 32)
  | .rdu32s => cause = 2 ∧ info = i.commandWord
  | .rdu64 => (cause = 2 ∧ info = i.commandWord) ∨ (cause = 4 ∧ info = s.len.setWidth 32)
  | .rdu64s => cause = 2 ∧ info = i.commandWord
  | .size => cause = 2 ∧ info = i.commandWord

/-- The error codes a command can be rejected with, and what INFO then records (R221,
R222). -/
def mayReject (i : Instr) (cause : Nat) (info : Word) : Prop :=
  match i with
  | .new d0 => (cause = 5 ∨ cause = 6) ∧ info = d0
  | .ldu32 _ => False
  | .ldu64 _ => False
  | .set _ => False
  | .clr _ => False
  | .flip _ => False
  | .test _ => False
  | .clrall => False
  | .setall => False
  | .not => False
  | .and _ => False
  | .or _ => False
  | .xor _ => False
  | .rdu32 => False
  | .rdu32s => False
  | .rdu64 => False
  | .rdu64s => False
  | .size => False

/-- The opcodes of formats N, D32 and D64, whose ARG is reserved (R62, R64, R70). -/
def opsWithReservedArg : List (BitVec 8) :=
  [0x01#8, 0x02#8, 0x03#8, 0x20#8, 0x21#8, 0x22#8, 0x40#8, 0x41#8, 0x42#8, 0x43#8, 0x50#8]

/-- The opcodes of formats I and M, which have no reserved bits (R63, R65, R70). -/
def opsWithFreeArg : List (BitVec 8) :=
  [0x10#8, 0x11#8, 0x12#8, 0x13#8, 0x30#8, 0x31#8, 0x32#8]

/-- The opcode lies in one of R69's reserved ranges. -/
def opReserved (op : BitVec 8) : Prop :=
  op.toNat = 0x00 ∨ (0x04 ≤ op.toNat ∧ op.toNat ≤ 0x0F) ∨ (0x14 ≤ op.toNat ∧ op.toNat ≤ 0x1F) ∨
  (0x23 ≤ op.toNat ∧ op.toNat ≤ 0x2F) ∨ (0x33 ≤ op.toNat ∧ op.toNat ≤ 0x3F) ∨
  (0x44 ≤ op.toNat ∧ op.toNat ≤ 0x4F) ∨ (0x51 ≤ op.toNat ∧ op.toNat ≤ 0xFF)

end Sys2Proof.Machine
end

