-- ==== Sys2Proof/Certificates/Slice0/Obligations.lean ====
section
/-! DEFINITION. The statements about the block. Where one says how a command ends it uses
`EndsOk`, `EndsError` and `EndsFault` of Safety.lean, which name every field of the state
but those the statement gives itself. -/

open Sys2Proof Sys2Proof.Machine

/-! ### The command stream -/

/-- Decoding the words of a sendable command gives the command and the words after it. -/
def Obligations.DecodeInvertsEncode : Prop :=
  ∀ (i : Instr) (rest : List Word), i.wellFormed = true →
    decode (encode i ++ rest) = .complete i rest

/-- With words missing, a command is incomplete: no other command, and not illegal. -/
def Obligations.TruncatedCommandIsIncomplete : Prop :=
  ∀ (i : Instr) (n : Nat), i.wellFormed = true → n < (encode i).length →
    decode ((encode i).take n) = .incomplete

/-- R69: a command word with a reserved OP faults on that word alone. -/
def Obligations.ReservedOpcodeFaults : Prop :=
  ∀ (w : Word) (rest : List HostEvent) (s : State), opReserved (w.extractLsb' 0 8) →
    s.halt = false → s.rxbuf = [] → s.hostIn = .word w :: rest →
    ∃ t, step s = .next t ∧
      EndsFault 1 (w.extractLsb' 0 8).toNat w (s.withHostIn rest) t

/-- R70: a nonzero reserved ARG faults on that word alone, and nothing else that a legal
opcode comes with is illegal. -/
def Obligations.ReservedArgFaults : Prop :=
  (∀ (w : Word) (rest : List HostEvent) (s : State),
    w.extractLsb' 0 8 ∈ opsWithReservedArg → w.extractLsb' 8 24 ≠ 0#24 →
    s.halt = false → s.rxbuf = [] → s.hostIn = .word w :: rest →
    ∃ t, step s = .next t ∧
      EndsFault 1 (w.extractLsb' 0 8).toNat w (s.withHostIn rest) t) ∧
  (∀ (w : Word) (data : List Word),
    (w.extractLsb' 0 8 ∈ opsWithReservedArg ∧ w.extractLsb' 8 24 = 0#24) ∨
      w.extractLsb' 0 8 ∈ opsWithFreeArg →
    decode (w :: data) = .incomplete ∨ ∃ i rest, decode (w :: data) = .complete i rest)

/-- The command words of R79 decode to the commands they stand for. -/
def Obligations.WorkedEncodingsDecode : Prop :=
  decode [0x00000001#32, 0x00000064#32] = .complete (.new 100#32) [] ∧
  decode [0x00000001#32, 0xFFFFFFFF#32] = .complete (.new (-1#32)) [] ∧
  decode [0x00000002#32, 0x0000FF00#32] = .complete (.ldu32 0x0000FF00#32) [] ∧
  decode [0x00000003#32, 0x89ABCDEF#32, 0x01234567#32] =
    .complete (.ldu64 0x0123456789ABCDEF#64) [] ∧
  decode [0x00000510#32] = .complete (.set 5#24) [] ∧
  decode [0x00000511#32] = .complete (.clr 5#24) [] ∧
  decode [0x00006712#32] = .complete (.flip 103#24) [] ∧
  decode [0x00000513#32] = .complete (.test 5#24) [] ∧
  decode [0x00000020#32] = .complete .clrall [] ∧
  decode [0x00000021#32] = .complete .setall [] ∧
  decode [0x00000022#32] = .complete .not [] ∧
  decode [0x00000030#32] = .complete (.and []) [] ∧
  decode [0x00000231#32, 0x000001F0#32] = .complete (.or [0xF0#8, 0x01#8]) [] ∧
  decode [0x00000532#32, 0xAAFFFFFF#32, 0x00000055#32] =
    .complete (.xor [0xFF#8, 0xFF#8, 0xFF#8, 0xAA#8, 0x55#8]) [] ∧
  decode [0x00000040#32] = .complete .rdu32 [] ∧
  decode [0x00000041#32] = .complete .rdu32s [] ∧
  decode [0x00000042#32] = .complete .rdu64 [] ∧
  decode [0x00000043#32] = .complete .rdu64s [] ∧
  decode [0x00000050#32] = .complete .size []

/-- Formats I, D32, D64 and N: which operand each opcode makes of its words (R62 to R64,
R68). -/
def Obligations.FixedFormatOperands : Prop :=
  ∀ (w d0 d1 : Word) (rest : List Word),
    (w.extractLsb' 0 8 = 0x10#8 →
      decode (w :: rest) = .complete (.set (w.extractLsb' 8 24)) rest) ∧
    (w.extractLsb' 0 8 = 0x11#8 →
      decode (w :: rest) = .complete (.clr (w.extractLsb' 8 24)) rest) ∧
    (w.extractLsb' 0 8 = 0x12#8 →
      decode (w :: rest) = .complete (.flip (w.extractLsb' 8 24)) rest) ∧
    (w.extractLsb' 0 8 = 0x13#8 →
      decode (w :: rest) = .complete (.test (w.extractLsb' 8 24)) rest) ∧
    decode (0x01#32 :: d0 :: rest) = .complete (.new d0) rest ∧
    decode (0x02#32 :: d0 :: rest) = .complete (.ldu32 d0) rest ∧
    decode (0x03#32 :: d0 :: d1 :: rest) =
      .complete (.ldu64 (BitVec.ofNat 64 (d1.toNat * 2 ^ 32 + d0.toNat))) rest ∧
    decode (0x20#32 :: rest) = .complete .clrall rest ∧
    decode (0x21#32 :: rest) = .complete .setall rest ∧
    decode (0x22#32 :: rest) = .complete .not rest ∧
    decode (0x40#32 :: rest) = .complete .rdu32 rest ∧
    decode (0x41#32 :: rest) = .complete .rdu32s rest ∧
    decode (0x42#32 :: rest) = .complete .rdu64 rest ∧
    decode (0x43#32 :: rest) = .complete .rdu64s rest ∧
    decode (0x50#32 :: rest) = .complete .size rest

/-- R65: a mask command takes `ceil(mlen/4)` data words and not one fewer, and mask byte
`k` is bits `8*(k%4)+7 : 8*(k%4)` of data word `k/4`; no other bit of the data words is
part of the operand. -/
def Obligations.MaskOperandLayout : Prop :=
  ∀ (w : Word) (data : List Word) (f : List Byte → Instr),
    (w.extractLsb' 0 8 = 0x30#8 ∧ f = .and) ∨ (w.extractLsb' 0 8 = 0x31#8 ∧ f = .or) ∨
      (w.extractLsb' 0 8 = 0x32#8 ∧ f = .xor) →
    (data.length < ((w.extractLsb' 8 24).toNat + 3) / 4 → decode (w :: data) = .incomplete) ∧
    (((w.extractLsb' 8 24).toNat + 3) / 4 ≤ data.length →
      ∃ mask, decode (w :: data) =
          .complete (f mask) (data.drop (((w.extractLsb' 8 24).toNat + 3) / 4)) ∧
        mask.length = (w.extractLsb' 8 24).toNat ∧
        ∀ k, k < mask.length →
          mask.getD k 0#8 = (data.getD (k / 4) 0#32).extractLsb' (8 * (k % 4)) 8)

/-! ### The step -/

/-- The step that takes the last word of a command is that command's execution, with the
word gone from the port and every word of the command in RXBUF. -/
def Obligations.StepRunsDecodedCommand : Prop :=
  ∀ (w : Word) (rest : List HostEvent) (i : Instr) (s : State),
    s.halt = false → s.hostIn = .word w :: rest → decode (s.rxbuf ++ [w]) = .complete i [] →
    step s = exec i ((s.withHostIn rest).withRxbuf (s.rxbuf ++ [w]))

/-- A word that does not complete its command is held in RXBUF, and nothing else happens
(R67, R30). That taking it is a step of its own is THE MODEL'S CHOICE: log entry 10. -/
def Obligations.StepHoldsPartialCommand : Prop :=
  ∀ (w : Word) (rest : List HostEvent) (s : State),
    s.halt = false → s.hostIn = .word w :: rest → decode (s.rxbuf ++ [w]) = .incomplete →
    step s = .next ((s.withHostIn rest).withRxbuf (s.rxbuf ++ [w]))

/-- R227: a halted block takes no word and emits nothing; the only step it can have is a
reset. -/
def Obligations.HaltedBlockIsStuck : Prop :=
  ∀ (s : State), s.halt = true →
    (HostEvent.reset ∉ s.hostIn → step s = .fault .halted) ∧
    ∀ t, step s = .next t → HostEvent.reset ∈ s.hostIn ∧ AfterReset t.hostIn s t

/-- "No command executes while the block is halted" (R228; R223 check 1). That exec then
answers the stop is THE MODEL'S reading: log entry 13. -/
def Obligations.NoCommandExecutesWhileHalted : Prop :=
  ∀ (i : Instr) (s : State), s.halt = true → exec i s = .fault .halted

/-- R260, R261: reset, from every state, running or halted. -/
def Obligations.ResetRestoresEveryRegister : Prop :=
  ∀ (rest : List HostEvent) (s : State), s.hostIn = .reset :: rest →
    ∃ t, step s = .next t ∧ AfterReset rest s t

/-- A reset keeps ARR. THE MODEL'S reading of "ARR is not reset": log entry 9. -/
def Obligations.ResetLeavesArrayAlone : Prop :=
  ∀ (rest : List HostEvent) (s t : State), s.hostIn = .reset :: rest → step s = .next t →
    t.arr = s.arr

/-- R263: the first state of the block is that of a reset; R36's value of every field but
ARR, which R36 leaves unspecified. -/
def Obligations.FirstStateIsReset : Prop :=
  Sys2Proof.core.reset.len = 0#22 ∧ Sys2Proof.core.reset.valid = false ∧
  Sys2Proof.core.reset.halt = false ∧ Sys2Proof.core.reset.cause = 0#4 ∧
  Sys2Proof.core.reset.info = 0#32 ∧ Sys2Proof.core.reset.rxbuf = [] ∧
  Sys2Proof.core.reset.status = 0#8

/-- A running block with nothing offered waits and keeps all state. THE MODEL'S CHOICE of
how a step shows waiting: log entry 6. -/
def Obligations.IdleBlockKeepsState : Prop :=
  ∀ (s : State), s.halt = false → s.hostIn = [] → step s = .next s

/-- The words of a sendable command, offered one by one to a running block with RXBUF
empty, make as many steps, and together they are one execution of the command (R67, R47). That
each word is a step of its own, where R272 has one step per complete command, is THE
MODEL'S CHOICE: log entry 10. -/
def Obligations.WholeCommandRuns : Prop :=
  ∀ (i : Instr) (rest : List HostEvent) (s : State), i.wellFormed = true →
    s.halt = false → s.rxbuf = [] → s.hostIn = (encode i).map .word ++ rest →
    Sys2Proof.core.run (encode i).length s =
      exec i ((s.withHostIn rest).withRxbuf (encode i))

/-- A command placed at the port runs in the very next step. What placing is, all words
but the last in RXBUF and the last offered next, is THE MODEL'S CHOICE: log entry 7. -/
def Obligations.PlacedCommandRuns : Prop :=
  ∀ (nbits w : Nat) (i : Instr) (s : State), s.halt = false →
    decode (tableWords nbits w) = .complete i [] →
    step (s.withFetchWord nbits w) = exec i (s.withRxbuf (tableWords nbits w))

/-- R272: every complete command, when the block is not halted, finishes and its response
has left. That a running block always has a step, an idle one among them, is THE MODEL'S
CHOICE: log entry 6. -/
def Obligations.NoCommandHangs : Prop :=
  ∀ (s : State), s.halt = false →
    (∃ t, step s = .next t) ∧
    ∀ i, ∃ t r payload, exec i s = .next t ∧ t.rxbuf = [] ∧
      t.respOut = s.respOut ++ r :: payload

/-- Responses already emitted stay emitted, in order, whatever the step. -/
def Obligations.ResponsesOnlyGrow : Prop :=
  ∀ (s t : State), step s = .next t → ∃ words, t.respOut = s.respOut ++ words

/-- HALT is set by a fault and by nothing else, and cleared only by reset. That the words
the host still offers stay with it over the reset is THE MODEL'S CHOICE: log entry 5. -/
def Obligations.OnlyFaultsHaltOnlyResetRevives : Prop :=
  ∀ (s t : State), step s = .next t →
    (s.halt = false → t.halt = true →
      ∃ cause op, 1 ≤ cause ∧ cause ≤ 4 ∧ t.cause = BitVec.ofNat 4 cause ∧
        t.arr = s.arr ∧ t.len = s.len ∧ t.valid = s.valid ∧ t.rxbuf = [] ∧
        t.respOut = s.respOut ++ [responseValue 2 t.valid.toNat cause op, t.info]) ∧
    (s.halt = true → t.halt = false ∧ HostEvent.reset ∈ s.hostIn ∧
      AfterReset (s.hostIn.erase .reset) s t)

/-! ### Invariants -/

/-- Every step keeps the invariant of R37 with the canonical form of ARR. -/
def Obligations.EveryStepKeepsInvariant : Prop :=
  ∀ (s t : State), BlockInv s → step s = .next t → BlockInv t

/-- The reset state satisfies the invariant. -/
def Obligations.InvariantHoldsAtReset : Prop := BlockInv State.reset

/-- RXBUF holds at most the words of an AND, OR or XOR with the longest mask (R30). -/
def Obligations.ReceiveBufferBounded : Prop :=
  ∀ (s : State), BlockInv s → s.rxbuf.length ≤ 1 + (2 ^ 24 - 1 + 3) / 4

/-- R23: bytes of ARR at or past LEN cannot be told apart by anything the block does, in
any number of steps. With LEN = 0 that is all of ARR, so what ARR holds after reset, log
entry 2's choice among the rest, cannot be seen. -/
def Obligations.BytesPastLenUnobservable : Prop :=
  ∀ (n : Nat) (s t : State), SameVector s t →
    SameAnswer (Sys2Proof.core.run n s) (Sys2Proof.core.run n t)

/-- The STATUS register: the place of each field, hardwired zeros, and the values R25
calls legal in every state of a run. -/
def Obligations.StatusRegisterFields : Prop :=
  ∀ (s : State),
    s.status.toNat = s.valid.toNat + 2 * s.halt.toNat + 16 * s.cause.toNat ∧
    s.status.extractLsb' 2 2 = 0#2 ∧
    (BlockInv s → s.cause.toNat ≤ 4 ∧ (s.halt = false → s.cause = 0#4)) ∧
    (∀ t, AfterReset t.hostIn s t → t.status = 0#8)

/-! ### All commands -/

/-- R224: taking a fault, for every cause, recorded value and command word. -/
def Obligations.FaultEntryHaltsAndReports : Prop :=
  ∀ (cause : Cause) (info w : Word) (s : State),
    (raiseFault cause info w s).halt = true ∧
    (raiseFault cause info w s).cause = cause.code ∧
    (raiseFault cause info w s).info = info ∧
    (raiseFault cause info w s).rxbuf = [] ∧
    (raiseFault cause info w s).respOut = s.respOut ++
      [BitVec.ofNat 32 (2 + 4 * s.valid.toNat + 16 * cause.code.toNat + 256 * (w.toNat % 256)),
        info] ∧
    (raiseFault cause info w s).arr = s.arr ∧
    (raiseFault cause info w s).len = s.len ∧
    (raiseFault cause info w s).valid = s.valid ∧
    (raiseFault cause info w s).hostIn = s.hostIn

/-- R225: rejecting a command, for every cause, recorded value and command word. -/
def Obligations.ErrorEntryReportsAndRunsOn : Prop :=
  ∀ (cause : Cause) (info w : Word) (s : State),
    (rejectError cause info w s).info = info ∧
    (rejectError cause info w s).rxbuf = [] ∧
    (rejectError cause info w s).respOut = s.respOut ++
      [BitVec.ofNat 32 (1 + 4 * s.valid.toNat + 16 * cause.code.toNat + 256 * (w.toNat % 256)),
        info] ∧
    (rejectError cause info w s).arr = s.arr ∧
    (rejectError cause info w s).len = s.len ∧
    (rejectError cause info w s).valid = s.valid ∧
    (rejectError cause info w s).halt = s.halt ∧
    (rejectError cause info w s).cause = s.cause ∧
    (rejectError cause info w s).hostIn = s.hostIn

/-- R220: a complete command has one of three outcomes, each with the response of R76 and
the payload of R77, and only the causes R222 gives it; a command that is not OK has
changed nothing but INFO, and STATUS if it faulted. -/
def Obligations.EveryCommandEndsOneWay : Prop :=
  ∀ (i : Instr) (s : State), s.halt = false → ∃ t, exec i s = .next t ∧
    ((∃ payload, payload.length = payloadLength i ∧ EndsOk i.opcode.toNat payload s t) ∨
     (∃ cause info, mayReject i cause info ∧ EndsError cause i.opcode.toNat info s t) ∨
     (∃ cause info, mayFault i s cause info ∧ EndsFault cause i.opcode.toNat info s t))

/-- R264: before a constructor, every other command faults with NO_INSTANCE. -/
def Obligations.CommandsNeedAnInstance : Prop :=
  ∀ (i : Instr) (s : State), isConstructor i = false → s.halt = false → s.valid = false →
    ∃ t, exec i s = .next t ∧ EndsFault 2 i.opcode.toNat i.commandWord s t

/-- Only the constructors write LEN and VALID; a constructor sets VALID or changes neither. -/
def Obligations.OnlyConstructorsWriteLenAndValid : Prop :=
  ∀ (i : Instr) (s t : State), exec i s = .next t →
    (isConstructor i = false → t.len = s.len ∧ t.valid = s.valid) ∧
    (isConstructor i = true → t.valid = true ∨ (t.len = s.len ∧ t.valid = s.valid))

/-- R29: INFO is written by every fault and every error, whose payload it is, and by
nothing else. -/
def Obligations.OnlyFaultsAndErrorsWriteInfo : Prop :=
  ∀ (i : Instr) (s t : State), exec i s = .next t →
    (t.info = s.info ∧ t.halt = false ∧
      ∃ payload, t.respOut = s.respOut ++ responseValue 0 t.valid.toNat 0 i.opcode.toNat :: payload) ∨
    (∃ kind cause, (kind = 1 ∨ kind = 2) ∧ 1 ≤ cause ∧ cause ≤ 6 ∧
      t.respOut = s.respOut ++ [responseValue kind t.valid.toNat cause i.opcode.toNat, t.info])

/-- No command writes a byte of ARR at or past the LEN it leaves (R23, R100, R164). -/
def Obligations.NothingPastLenIsWritten : Prop :=
  ∀ (i : Instr) (s t : State), exec i s = .next t →
    ∀ a, t.length ≤ a → t.arr.read a = s.arr.read a

/-- R48 of the reads: on success they change no part of the state of R36 but RXBUF, which
every complete command empties, and asked again they answer the same. -/
def Obligations.ReadsHaveNoSideEffects : Prop :=
  ∀ (i : Instr) (s t : State) (answer : List Word),
    ((∃ k, i = .test k) ∨ i = .rdu32 ∨ i = .rdu32s ∨ i = .rdu64 ∨ i = .rdu64s ∨ i = .size) →
    exec i s = .next t → EndsOk i.opcode.toNat answer s t →
    t.arr = s.arr ∧ KeepsInstance s t ∧
    ∃ u, exec i t = .next u ∧ EndsOk i.opcode.toNat answer t u

/-! ### Construction -/

/-- R101. -/
def Obligations.NewMakesZeroVector : Prop :=
  ∀ (d0 : Word) (s : State), s.halt = false →
    encode (.new d0) = [0x00000001#32, d0] ∧
    (d0.toInt ≤ 0 → ∃ t, exec (.new d0) s = .next t ∧ EndsError 5 0x01 d0 s t) ∧
    (0 < d0.toInt → (Config.capBytes : Int) < (d0.toInt + 7) / 8 →
      ∃ t, exec (.new d0) s = .next t ∧ EndsError 6 0x01 d0 s t) ∧
    (0 < d0.toInt → (d0.toInt + 7) / 8 ≤ (Config.capBytes : Int) →
      ∃ t, exec (.new d0) s = .next t ∧ EndsOk 0x01 [] s t ∧
        (t.length : Int) = (d0.toInt + 7) / 8 ∧ t.valid = true ∧
        ∀ a, t.arr.read a = if a < t.length then 0x00#8 else s.arr.read a)

/-- R102. -/
def Obligations.Ldu32LoadsSeed : Prop :=
  ∀ (seed : Word) (s : State), s.halt = false →
    encode (.ldu32 seed) = [0x00000002#32, seed] ∧
    ∃ t, exec (.ldu32 seed) s = .next t ∧ EndsOk 0x02 [] s t ∧
      t.length = 4 ∧ t.valid = true ∧
      ∀ a, t.arr.read a = if a < 4 then seed.extractLsb' (8 * a) 8 else s.arr.read a

/-- R103. -/
def Obligations.Ldu64LoadsSeed : Prop :=
  ∀ (d0 d1 : Word) (s : State), s.halt = false →
    encode (.ldu64 (d1 ++ d0)) = [0x00000003#32, d0, d1] ∧
    ∃ t, exec (.ldu64 (d1 ++ d0)) s = .next t ∧ EndsOk 0x03 [] s t ∧
      t.length = 8 ∧ t.valid = true ∧
      ∀ a, t.arr.read a =
        if a < 4 then d0.extractLsb' (8 * a) 8
        else if a < 8 then d1.extractLsb' (8 * (a - 4)) 8 else s.arr.read a

/-! ### One bit -/

/-- R121. -/
def Obligations.SetForcesBitToOne : Prop :=
  ∀ (i : BitVec 24) (s : State), s.halt = false →
    encode (.set i) = [i ++ 0x10#8] ∧
    (s.valid = false → ∃ t, exec (.set i) s = .next t ∧ EndsFault 2 0x10 (i ++ 0x10#8) s t) ∧
    (s.valid = true → 8 * s.length ≤ i.toNat →
      ∃ t, exec (.set i) s = .next t ∧ EndsFault 3 0x10 (i.setWidth 32) s t) ∧
    (s.valid = true → i.toNat < 8 * s.length →
      ∃ t, exec (.set i) s = .next t ∧ EndsOk 0x10 [] s t ∧ KeepsInstance s t ∧
        (∀ j, t.bit j = if j = i.toNat then true else s.bit j) ∧
        ∀ a, a ≠ byteIndex i → t.arr.read a = s.arr.read a)

/-- R122. -/
def Obligations.ClrForcesBitToZero : Prop :=
  ∀ (i : BitVec 24) (s : State), s.halt = false →
    encode (.clr i) = [i ++ 0x11#8] ∧
    (s.valid = false → ∃ t, exec (.clr i) s = .next t ∧ EndsFault 2 0x11 (i ++ 0x11#8) s t) ∧
    (s.valid = true → 8 * s.length ≤ i.toNat →
      ∃ t, exec (.clr i) s = .next t ∧ EndsFault 3 0x11 (i.setWidth 32) s t) ∧
    (s.valid = true → i.toNat < 8 * s.length →
      ∃ t, exec (.clr i) s = .next t ∧ EndsOk 0x11 [] s t ∧ KeepsInstance s t ∧
        (∀ j, t.bit j = if j = i.toNat then false else s.bit j) ∧
        ∀ a, a ≠ byteIndex i → t.arr.read a = s.arr.read a)

/-- R123. -/
def Obligations.FlipTogglesBit : Prop :=
  ∀ (i : BitVec 24) (s : State), s.halt = false →
    encode (.flip i) = [i ++ 0x12#8] ∧
    (s.valid = false → ∃ t, exec (.flip i) s = .next t ∧ EndsFault 2 0x12 (i ++ 0x12#8) s t) ∧
    (s.valid = true → 8 * s.length ≤ i.toNat →
      ∃ t, exec (.flip i) s = .next t ∧ EndsFault 3 0x12 (i.setWidth 32) s t) ∧
    (s.valid = true → i.toNat < 8 * s.length →
      ∃ t, exec (.flip i) s = .next t ∧ EndsOk 0x12 [] s t ∧ KeepsInstance s t ∧
        (∀ j, t.bit j = if j = i.toNat then !s.bit j else s.bit j) ∧
        ∀ a, a ≠ byteIndex i → t.arr.read a = s.arr.read a)

/-- R124. -/
def Obligations.TestAnswersBit : Prop :=
  ∀ (i : BitVec 24) (s : State), s.halt = false →
    encode (.test i) = [i ++ 0x13#8] ∧
    (s.valid = false → ∃ t, exec (.test i) s = .next t ∧ EndsFault 2 0x13 (i ++ 0x13#8) s t) ∧
    (s.valid = true → 8 * s.length ≤ i.toNat →
      ∃ t, exec (.test i) s = .next t ∧ EndsFault 3 0x13 (i.setWidth 32) s t) ∧
    (s.valid = true → i.toNat < 8 * s.length →
      ∃ t, exec (.test i) s = .next t ∧
        EndsOk 0x13 [if s.bit i.toNat then 0x00000001#32 else 0x00000000#32] s t ∧
        KeepsInstance s t ∧ t.arr = s.arr)

/-! ### Every byte -/

/-- R141. -/
def Obligations.ClrallClearsVector : Prop :=
  ∀ (s : State), s.halt = false →
    encode .clrall = [0x00000020#32] ∧ ArgMustBeZero 0x20#8 s ∧
    (s.valid = false → ∃ t, exec .clrall s = .next t ∧ EndsFault 2 0x20 0x00000020#32 s t) ∧
    (s.valid = true → ∃ t, exec .clrall s = .next t ∧ EndsOk 0x20 [] s t ∧ KeepsInstance s t ∧
      ∀ a, t.arr.read a = if a < s.length then 0x00#8 else s.arr.read a)

/-- R142. -/
def Obligations.SetallSetsVector : Prop :=
  ∀ (s : State), s.halt = false →
    encode .setall = [0x00000021#32] ∧ ArgMustBeZero 0x21#8 s ∧
    (s.valid = false → ∃ t, exec .setall s = .next t ∧ EndsFault 2 0x21 0x00000021#32 s t) ∧
    (s.valid = true → ∃ t, exec .setall s = .next t ∧ EndsOk 0x21 [] s t ∧ KeepsInstance s t ∧
      ∀ a, t.arr.read a = if a < s.length then 0xFF#8 else s.arr.read a)

/-- R143. -/
def Obligations.NotComplementsVector : Prop :=
  ∀ (s : State), s.halt = false →
    encode .not = [0x00000022#32] ∧ ArgMustBeZero 0x22#8 s ∧
    (s.valid = false → ∃ t, exec .not s = .next t ∧ EndsFault 2 0x22 0x00000022#32 s t) ∧
    (s.valid = true → ∃ t, exec .not s = .next t ∧ EndsOk 0x22 [] s t ∧ KeepsInstance s t ∧
      ∀ a, t.arr.read a = if a < s.length then ~~~s.arr.read a else s.arr.read a)

/-! ### Masks -/

/-- R161, with R160's mask byte of 0 past the mask. -/
def Obligations.AndCombinesWithMask : Prop :=
  ∀ (mask : List Byte) (s : State), s.halt = false →
    (encode (.and mask)).head? = some (BitVec.ofNat 24 mask.length ++ 0x30#8) ∧
    (s.valid = false → ∃ t, exec (.and mask) s = .next t ∧
      EndsFault 2 0x30 (BitVec.ofNat 24 mask.length ++ 0x30#8) s t) ∧
    (s.valid = true → ∃ t, exec (.and mask) s = .next t ∧ EndsOk 0x30 [] s t ∧
      KeepsInstance s t ∧
      ∀ a, t.arr.read a =
        if a < s.length then (if a < mask.length then s.arr.read a &&& mask.getD a 0#8 else 0x00#8)
        else s.arr.read a)

/-- R162, with R160's mask byte of 0 past the mask. -/
def Obligations.OrCombinesWithMask : Prop :=
  ∀ (mask : List Byte) (s : State), s.halt = false →
    (encode (.or mask)).head? = some (BitVec.ofNat 24 mask.length ++ 0x31#8) ∧
    (s.valid = false → ∃ t, exec (.or mask) s = .next t ∧
      EndsFault 2 0x31 (BitVec.ofNat 24 mask.length ++ 0x31#8) s t) ∧
    (s.valid = true → ∃ t, exec (.or mask) s = .next t ∧ EndsOk 0x31 [] s t ∧
      KeepsInstance s t ∧
      ∀ a, t.arr.read a =
        if a < s.length ∧ a < mask.length then s.arr.read a ||| mask.getD a 0#8
        else s.arr.read a)

/-- R163, with R160's mask byte of 0 past the mask. -/
def Obligations.XorCombinesWithMask : Prop :=
  ∀ (mask : List Byte) (s : State), s.halt = false →
    (encode (.xor mask)).head? = some (BitVec.ofNat 24 mask.length ++ 0x32#8) ∧
    (s.valid = false → ∃ t, exec (.xor mask) s = .next t ∧
      EndsFault 2 0x32 (BitVec.ofNat 24 mask.length ++ 0x32#8) s t) ∧
    (s.valid = true → ∃ t, exec (.xor mask) s = .next t ∧ EndsOk 0x32 [] s t ∧
      KeepsInstance s t ∧
      ∀ a, t.arr.read a =
        if a < s.length ∧ a < mask.length then s.arr.read a ^^^ mask.getD a 0#8
        else s.arr.read a)

/-! ### Integers and the length -/

/-- R181. -/
def Obligations.Rdu32ReadsFourBytes : Prop :=
  ∀ (s : State), s.halt = false →
    encode .rdu32 = [0x00000040#32] ∧ ArgMustBeZero 0x40#8 s ∧
    (s.valid = false → ∃ t, exec .rdu32 s = .next t ∧ EndsFault 2 0x40 0x00000040#32 s t) ∧
    (s.valid = true → s.length < 4 →
      ∃ t, exec .rdu32 s = .next t ∧ EndsFault 4 0x40 (BitVec.ofNat 32 s.length) s t) ∧
    (s.valid = true → 4 ≤ s.length → ∃ t, exec .rdu32 s = .next t ∧
      EndsOk 0x40 [s.arr.read 3 ++ s.arr.read 2 ++ s.arr.read 1 ++ s.arr.read 0] s t ∧
      KeepsInstance s t ∧ t.arr = s.arr)

/-- R182. -/
def Obligations.Rdu32sZeroFills : Prop :=
  ∀ (s : State) (b : Nat → Byte), s.halt = false →
    (∀ k, b k = if k < s.length then s.arr.read k else 0x00#8) →
    encode .rdu32s = [0x00000041#32] ∧ ArgMustBeZero 0x41#8 s ∧
    (s.valid = false → ∃ t, exec .rdu32s s = .next t ∧ EndsFault 2 0x41 0x00000041#32 s t) ∧
    (s.valid = true → ∃ t, exec .rdu32s s = .next t ∧
      EndsOk 0x41 [b 3 ++ b 2 ++ b 1 ++ b 0] s t ∧ KeepsInstance s t ∧ t.arr = s.arr)

/-- R183. -/
def Obligations.Rdu64ReadsEightBytes : Prop :=
  ∀ (s : State), s.halt = false →
    encode .rdu64 = [0x00000042#32] ∧ ArgMustBeZero 0x42#8 s ∧
    (s.valid = false → ∃ t, exec .rdu64 s = .next t ∧ EndsFault 2 0x42 0x00000042#32 s t) ∧
    (s.valid = true → s.length < 8 →
      ∃ t, exec .rdu64 s = .next t ∧ EndsFault 4 0x42 (BitVec.ofNat 32 s.length) s t) ∧
    (s.valid = true → 8 ≤ s.length → ∃ t, exec .rdu64 s = .next t ∧
      EndsOk 0x42 [s.arr.read 3 ++ s.arr.read 2 ++ s.arr.read 1 ++ s.arr.read 0,
        s.arr.read 7 ++ s.arr.read 6 ++ s.arr.read 5 ++ s.arr.read 4] s t ∧
      KeepsInstance s t ∧ t.arr = s.arr)

/-- R184. -/
def Obligations.Rdu64sZeroFills : Prop :=
  ∀ (s : State) (b : Nat → Byte), s.halt = false →
    (∀ k, b k = if k < s.length then s.arr.read k else 0x00#8) →
    encode .rdu64s = [0x00000043#32] ∧ ArgMustBeZero 0x43#8 s ∧
    (s.valid = false → ∃ t, exec .rdu64s s = .next t ∧ EndsFault 2 0x43 0x00000043#32 s t) ∧
    (s.valid = true → ∃ t, exec .rdu64s s = .next t ∧
      EndsOk 0x43 [b 3 ++ b 2 ++ b 1 ++ b 0, b 7 ++ b 6 ++ b 5 ++ b 4] s t ∧
      KeepsInstance s t ∧ t.arr = s.arr)

/-- R200. -/
def Obligations.SizeAnswersByteLength : Prop :=
  ∀ (s : State), s.halt = false →
    encode .size = [0x00000050#32] ∧ ArgMustBeZero 0x50#8 s ∧
    (s.valid = false → ∃ t, exec .size s = .next t ∧ EndsFault 2 0x50 0x00000050#32 s t) ∧
    (s.valid = true → ∃ t, exec .size s = .next t ∧
      EndsOk 0x50 [BitVec.ofNat 32 s.length] s t ∧ KeepsInstance s t ∧ t.arr = s.arr ∧
      (BlockInv s → 0 < s.length))

/-! ### Laws of several commands -/

/-- R106. -/
def Obligations.ConstructionRoundTrips : Prop :=
  ∀ (s : State), s.halt = false →
    (∀ d0 : Word, 0 < d0.toInt → d0.toInt ≤ (Config.capBits : Int) →
      ∃ t, exec (.new d0) s = .next t ∧
        (∃ u, exec .size t = .next u ∧
          EndsOk 0x50 [BitVec.ofInt 32 ((d0.toInt + 7) / 8)] t u) ∧
        ∀ i : BitVec 24, (i.toNat : Int) < 8 * ((d0.toInt + 7) / 8) →
          ∃ u, exec (.test i) t = .next u ∧ EndsOk 0x13 [0#32] t u) ∧
    (∀ seed : Word, ∃ t, exec (.ldu32 seed) s = .next t ∧
      (∃ u, exec .rdu32 t = .next u ∧ EndsOk 0x40 [seed] t u) ∧
      ∃ u, exec .rdu32s t = .next u ∧ EndsOk 0x41 [seed] t u) ∧
    (∀ d0 d1 : Word, ∃ t, exec (.ldu64 (d1 ++ d0)) s = .next t ∧
      (∃ u, exec .rdu64 t = .next u ∧ EndsOk 0x42 [d0, d1] t u) ∧
      ∃ u, exec .rdu64s t = .next u ∧ EndsOk 0x43 [d0, d1] t u)

/-- R125. -/
def Obligations.PerBitLaws : Prop :=
  ∀ (i : BitVec 24) (s : State), s.halt = false → s.valid = true → i.toNat < 8 * s.length →
    (∃ t u, exec (.set i) s = .next t ∧ exec (.test i) t = .next u ∧ EndsOk 0x13 [1#32] t u) ∧
    (∃ t u, exec (.clr i) s = .next t ∧ exec (.test i) t = .next u ∧ EndsOk 0x13 [0#32] t u) ∧
    (∃ t u, exec (.flip i) s = .next t ∧ exec (.flip i) t = .next u ∧
      ∀ a, u.arr.read a = s.arr.read a) ∧
    (∀ t, (exec (.set i) s = .next t ∨ exec (.clr i) s = .next t ∨ exec (.flip i) s = .next t) →
      ∀ j, j ≠ i.toNat → t.bit j = s.bit j) ∧
    ∀ (j : BitVec 24), j ≠ i → j.toNat < 8 * s.length →
      ∃ t u v answer, exec (.set i) s = .next t ∧ exec (.test j) s = .next u ∧
        exec (.test j) t = .next v ∧ EndsOk 0x13 [answer] s u ∧ EndsOk 0x13 [answer] t v

/-- R144. -/
def Obligations.BulkLaws : Prop :=
  ∀ (s : State), s.halt = false → s.valid = true →
    (∀ i : BitVec 24, i.toNat < 8 * s.length → ∃ t u, exec .clrall s = .next t ∧
      exec (.test i) t = .next u ∧ EndsOk 0x13 [0#32] t u) ∧
    (∀ i : BitVec 24, i.toNat < 8 * s.length → ∃ t u, exec .setall s = .next t ∧
      exec (.test i) t = .next u ∧ EndsOk 0x13 [1#32] t u) ∧
    (∃ t u, exec .not s = .next t ∧ exec .not t = .next u ∧
      ∀ a, u.arr.read a = s.arr.read a) ∧
    (∃ t u, exec .not s = .next t ∧
      exec (.xor (List.replicate s.length 0xFF#8)) s = .next u ∧
      KeepsInstance t u ∧ ∀ a, t.arr.read a = u.arr.read a) ∧
    (∃ t u, exec .clrall s = .next t ∧ exec (.and []) s = .next u ∧
      KeepsInstance t u ∧ ∀ a, t.arr.read a = u.arr.read a)

/-- R165. -/
def Obligations.MaskLaws : Prop :=
  ∀ (mask : List Byte) (s : State), s.halt = false → s.valid = true →
    (mask.length = s.length →
      (∃ t, exec (.and mask) s = .next t ∧ ∀ a, a < s.length →
        t.arr.read a = s.arr.read a &&& mask.getD a 0#8) ∧
      (∃ t, exec (.or mask) s = .next t ∧ ∀ a, a < s.length →
        t.arr.read a = s.arr.read a ||| mask.getD a 0#8) ∧
      (∃ t, exec (.xor mask) s = .next t ∧ ∀ a, a < s.length →
        t.arr.read a = s.arr.read a ^^^ mask.getD a 0#8) ∧
      (∀ j, j < 8 * s.length → ∃ t u v, exec (.and mask) s = .next t ∧
        exec (.or mask) s = .next u ∧ exec (.xor mask) s = .next v ∧
        t.bit j = (s.bit j && (mask.getD (j / 8) 0#8).getLsbD (j % 8)) ∧
        u.bit j = (s.bit j || (mask.getD (j / 8) 0#8).getLsbD (j % 8)) ∧
        v.bit j = (s.bit j ^^ (mask.getD (j / 8) 0#8).getLsbD (j % 8)))) ∧
    (∃ t u, exec (.xor mask) s = .next t ∧ exec (.xor mask) t = .next u ∧
      ∀ a, u.arr.read a = s.arr.read a) ∧
    (∃ t u, exec (.and mask) s = .next t ∧ exec (.and mask) t = .next u ∧
      ∀ a, u.arr.read a = t.arr.read a) ∧
    ∃ t u, exec (.or mask) s = .next t ∧ exec (.or mask) t = .next u ∧
      ∀ a, u.arr.read a = t.arr.read a

/-- Mask bytes at and past LEN "are read from the port and not used" (R160): with them or
without them the vector is the same. -/
def Obligations.ExtraMaskBytesUnused : Prop :=
  ∀ (mask : List Byte) (f : List Byte → Instr) (s t : State), s.length ≤ mask.length →
    (f = .and ∨ f = .or ∨ f = .xor) → exec (f mask) s = .next t →
    ∃ u, exec (f (mask.take s.length)) s = .next u ∧ KeepsInstance t u ∧
      ∀ a, u.arr.read a = t.arr.read a

/-- R185. -/
def Obligations.ConversionLaws : Prop :=
  ∀ (s : State), s.halt = false →
    (∀ seed : Word, ∃ t u v, exec (.ldu32 seed) s = .next t ∧
      exec .rdu32 t = .next u ∧ EndsOk 0x40 [seed] t u ∧
      exec .rdu32s t = .next v ∧ EndsOk 0x41 [seed] t v) ∧
    (∀ d0 d1 : Word, ∃ t u v, exec (.ldu64 (d1 ++ d0)) s = .next t ∧
      exec .rdu64 t = .next u ∧ EndsOk 0x42 [d0, d1] t u ∧
      exec .rdu64s t = .next v ∧ EndsOk 0x43 [d0, d1] t v) ∧
    (s.valid = true → 4 ≤ s.length →
      ∃ t u answer, exec .rdu32 s = .next t ∧ EndsOk 0x40 answer s t ∧
        exec .rdu32s s = .next u ∧ EndsOk 0x41 answer s u) ∧
    (s.valid = true → 8 ≤ s.length →
      ∃ t u answer, exec .rdu64 s = .next t ∧ EndsOk 0x42 answer s t ∧
        exec .rdu64s s = .next u ∧ EndsOk 0x43 answer s u) ∧
    (s.valid = true → ∃ t u lo hi, exec .rdu32s s = .next t ∧ EndsOk 0x41 [lo] s t ∧
      exec .rdu64s s = .next u ∧ EndsOk 0x43 [lo, hi] s u) ∧
    (s.valid = true → s.length = 2 → s.arr.read 0 = 0x34#8 → s.arr.read 1 = 0x12#8 →
      ∃ t, exec .rdu32s s = .next t ∧ EndsOk 0x41 [0x1234#32] s t) ∧
    (s.valid = true → ∃ t answer, exec .rdu32s s = .next t ∧ EndsOk 0x41 [answer] s t ∧
      (∀ j : BitVec 24, j.toNat < min 32 (8 * s.length) → ∃ u, exec (.test j) s = .next u ∧
        EndsOk 0x13 [if answer.getLsbD j.toNat then 1#32 else 0#32] s u) ∧
      ∀ j, min 32 (8 * s.length) ≤ j → answer.getLsbD j = false)

/-- R43: the bit view and the integer view agree. -/
def Obligations.BitViewIsIntegerView : Prop :=
  (∀ (s : State) (i : Nat), i < 8 * s.length →
    s.bit i = (s.arr.memRead s.length).testBit i) ∧
  (∀ (x : Word) (s : State) (i : BitVec 24), s.halt = false → i.toNat < 32 →
    ∃ t u, exec (.ldu32 x) s = .next t ∧ exec (.test i) t = .next u ∧
      EndsOk 0x13 [if x.getLsbD i.toNat then 1#32 else 0#32] t u) ∧
  (∀ (s : State), s.halt = false → s.valid = true → 4 ≤ s.length →
    ∃ t answer, exec .rdu32 s = .next t ∧ EndsOk 0x40 [answer] s t ∧
      ∀ j, j < 32 → answer.getLsbD j = s.bit j)

/-! ### The assembler -/

/-- What the disassembler prints for a sendable command assembles to that command. -/
def Obligations.AssembleInvertsDisassemble : Prop :=
  ∀ (i : Instr), i.wellFormed = true → Asm.assembleLine (Asm.disassemble i) = .ok (some i)

/-- R73: each alias takes the operand of the mnemonic R15 gives it, and makes that
mnemonic's command of it. -/
def Obligations.AliasesNameTheirCommands : Prop :=
  Asm.formOf "new".toList = some (.count .new) ∧ Asm.formOf "NEW".toList = some (.count .new) ∧
  Asm.formOf "from_u32".toList = some (.seed32 .ldu32) ∧ Asm.formOf "LDU32".toList = some (.seed32 .ldu32) ∧
  Asm.formOf "from_u64".toList = some (.seed64 .ldu64) ∧ Asm.formOf "LDU64".toList = some (.seed64 .ldu64) ∧
  Asm.formOf "set".toList = some (.index .set) ∧ Asm.formOf "SET".toList = some (.index .set) ∧
  Asm.formOf "clear".toList = some (.index .clr) ∧ Asm.formOf "CLR".toList = some (.index .clr) ∧
  Asm.formOf "flip".toList = some (.index .flip) ∧ Asm.formOf "FLIP".toList = some (.index .flip) ∧
  Asm.formOf "test".toList = some (.index .test) ∧ Asm.formOf "TEST".toList = some (.index .test) ∧
  Asm.formOf "clear_all".toList = some (.bare .clrall) ∧ Asm.formOf "CLRALL".toList = some (.bare .clrall) ∧
  Asm.formOf "set_all".toList = some (.bare .setall) ∧ Asm.formOf "SETALL".toList = some (.bare .setall) ∧
  Asm.formOf "flip_all".toList = some (.bare .not) ∧ Asm.formOf "NOT".toList = some (.bare .not) ∧
  Asm.formOf "and_mask".toList = some (.bytes .and) ∧ Asm.formOf "AND".toList = some (.bytes .and) ∧
  Asm.formOf "or_mask".toList = some (.bytes .or) ∧ Asm.formOf "OR".toList = some (.bytes .or) ∧
  Asm.formOf "xor_mask".toList = some (.bytes .xor) ∧ Asm.formOf "XOR".toList = some (.bytes .xor) ∧
  Asm.formOf "to_u32_unchecked".toList = some (.bare .rdu32) ∧ Asm.formOf "RDU32".toList = some (.bare .rdu32) ∧
  Asm.formOf "to_u32_safe".toList = some (.bare .rdu32s) ∧ Asm.formOf "RDU32S".toList = some (.bare .rdu32s) ∧
  Asm.formOf "to_u64_unchecked".toList = some (.bare .rdu64) ∧ Asm.formOf "RDU64".toList = some (.bare .rdu64) ∧
  Asm.formOf "to_u64_safe".toList = some (.bare .rdu64s) ∧ Asm.formOf "RDU64S".toList = some (.bare .rdu64s) ∧
  Asm.formOf "size".toList = some (.bare .size) ∧ Asm.formOf "SIZE".toList = some (.bare .size) ∧
  Asm.formOf "size_in_bytes".toList = some (.bare .size) ∧ Asm.formOf "SIZE".toList = some (.bare .size)
end

