-- ==== Sys2Proof/Laws/Decode.lean ====
section
/-! SUPPORT. The small lemmas of the decoder and the encoder: fields of a command word,
masks in data words, and how long a command is. -/

namespace Sys2Proof

/-- OP of a command word is its opcode (R61). -/
@[simp] theorem opField_append (a : BitVec 24) (o : BitVec 8) :
    opField ((a ++ o : BitVec 32)) = o := by
  simp only [opField]
  ext k hk
  simp only [BitVec.getElem_extractLsb', BitVec.getLsbD_append]
  simp [hk]

/-- ARG of a command word is its argument (R61). -/
@[simp] theorem argField_append (a : BitVec 24) (o : BitVec 8) :
    argField ((a ++ o : BitVec 32)) = a := by
  simp only [argField]
  ext k hk
  simp only [BitVec.getElem_extractLsb', BitVec.getLsbD_append]
  simp [hk, show ¬ (8 + k < 8) by omega]

@[simp] theorem opField_commandWord (i : Instr) : opField i.commandWord = i.opcode :=
  opField_append _ _

@[simp] theorem argField_commandWord (i : Instr) : argField i.commandWord = i.arg :=
  argField_append _ _

@[simp] theorem encode_cons (i : Instr) : encode i = i.commandWord :: i.dataWords := rfl

/-! ### The command words of formats N, D32 and D64 (R62, R64, R66) -/

theorem commandWord_new (d0 : Word) : (Instr.new d0).commandWord = 0x00000001#32 := by
  simp only [Instr.commandWord, Instr.arg, Instr.opcode]
  decide
theorem commandWord_ldu32 (seed : Word) : (Instr.ldu32 seed).commandWord = 0x00000002#32 := by
  simp only [Instr.commandWord, Instr.arg, Instr.opcode]
  decide
theorem commandWord_ldu64 (seed : BitVec 64) : (Instr.ldu64 seed).commandWord = 0x00000003#32 := by
  simp only [Instr.commandWord, Instr.arg, Instr.opcode]
  decide
theorem commandWord_clrall : Instr.clrall.commandWord = 0x00000020#32 := by decide
theorem commandWord_setall : Instr.setall.commandWord = 0x00000021#32 := by decide
theorem commandWord_not : Instr.not.commandWord = 0x00000022#32 := by decide
theorem commandWord_rdu32 : Instr.rdu32.commandWord = 0x00000040#32 := by decide
theorem commandWord_rdu32s : Instr.rdu32s.commandWord = 0x00000041#32 := by decide
theorem commandWord_rdu64 : Instr.rdu64.commandWord = 0x00000042#32 := by decide
theorem commandWord_rdu64s : Instr.rdu64s.commandWord = 0x00000043#32 := by decide
theorem commandWord_size : Instr.size.commandWord = 0x00000050#32 := by decide

/-! ### Decoding by format -/

/-- A command word with a reserved OP is illegal, whatever follows (R69). -/
theorem decode_of_reserved {w : Word} (h : shapeOf (opField w) = none) (data : List Word) :
    decode (w :: data) = .illegal .reservedOp w := by
  simp only [decode, h]

/-- A command word of the opcode map decodes by its format (R67). -/
theorem decode_of_shape {w : Word} {shape : Shape} (h : shapeOf (opField w) = some shape)
    (data : List Word) : decode (w :: data) = decodeShape shape w data := by
  simp only [decode, h]

/-- Format M with data words missing (R67). -/
theorem decodeShape_m_of_lt {f : List Byte → Instr} {w : Word} {data : List Word}
    (h : data.length < maskWords (argField w).toNat) :
    decodeShape (.m f) w data = .incomplete := by
  simp only [decodeShape, if_pos h]

/-- Format M with all its data words (R65). -/
theorem decodeShape_m_of_le {f : List Byte → Instr} {w : Word} {data : List Word}
    (h : maskWords (argField w).toNat ≤ data.length) :
    decodeShape (.m f) w data =
      .complete (f (unpackMask (argField w).toNat (data.take (maskWords (argField w).toNat))))
        (data.drop (maskWords (argField w).toNat)) := by
  simp only [decodeShape, if_neg (Nat.not_lt.mpr h)]

/-- The four bytes of a packed word (R65). -/
@[simp] theorem wordBytes_packWord (b0 b1 b2 b3 : Byte) :
    wordBytes (packWord b0 b1 b2 b3) = [b0, b1, b2, b3] := by
  simp only [wordBytes, packWord, List.cons.injEq, and_true]
  refine ⟨?_, ?_, ?_, ?_⟩ <;>
  · ext k hk
    simp only [BitVec.getElem_extractLsb', BitVec.getLsbD_append]
    grind

/-- A mask of `n` bytes takes `ceil(n/4)` data words (R65). -/
theorem length_packMask (mask : List Byte) :
    (packMask mask).length = maskWords mask.length := by
  induction mask using packMask.induct with
  | case1 => rfl
  | case2 => simp [packMask, maskWords]
  | case3 => simp [packMask, maskWords]
  | case4 => simp [packMask, maskWords]
  | case5 b0 b1 b2 b3 rest ih =>
    simp only [packMask, List.length_cons, ih, maskWords]
    omega

/-- Unpacking a packed mask gives the mask (R65). -/
theorem unpackMask_packMask (mask : List Byte) :
    unpackMask mask.length (packMask mask) = mask := by
  induction mask using packMask.induct with
  | case1 => rfl
  | case2 b0 => simp [packMask, unpackMask]
  | case3 b0 b1 => simp [packMask, unpackMask]
  | case4 b0 b1 b2 => simp [packMask, unpackMask]
  | case5 b0 b1 b2 b3 rest ih =>
    simp only [unpackMask] at ih
    simp [packMask, unpackMask, ih]

/-- The two halves of a seed are joined low word first (R64). -/
@[simp] theorem joinSeed_halves (seed : BitVec 64) :
    joinSeed (seed.extractLsb' 0 32) (seed.extractLsb' 32 32) = seed := by
  simp only [joinSeed]
  ext k hk
  simp only [BitVec.getElem_append]
  grind

/-- `splitWords` gives as many words as asked for. -/
@[simp] theorem length_splitWords (n w : Nat) : (splitWords n w).length = n := by
  induction n generalizing w with
  | zero => rfl
  | succ n ih => simp [splitWords, ih]

/-- A mask that fits has its own length as ARG (R65). -/
theorem toNat_maskLength {mask : List Byte} (h : maskFits mask = true) :
    (BitVec.ofNat 24 mask.length).toNat = mask.length := by
  have : mask.length < 2 ^ 24 := by simpa [maskFits] using h
  simpa [BitVec.toNat_ofNat] using Nat.mod_eq_of_lt this

end Sys2Proof
end

