-- ==== Sys2Proof/Laws/Memory.lean ====
section
/-! SUPPORT. What a read gives after each write of ARR, and that every write keeps the
canonical form. -/

namespace Sys2Proof.Machine

@[simp] theorem Memory.read_nil (a : Nat) : Memory.read [] a = Memory.unlisted := rfl

theorem Memory.read_cons (c : Host.Cell) (m : Memory) (a : Nat) :
    Memory.read (c :: m) a = if c.1 = a then c.2 else m.read a := rfl

theorem Memory.read_without_same (m : Memory) (a : Nat) :
    (m.without a).read a = Memory.unlisted := by
  induction m with
  | nil => rfl
  | cons c m ih =>
    by_cases h : c.1 = a
    · simpa [Memory.without, h] using ih
    · simpa [Memory.without, h, Memory.read_cons] using ih

theorem Memory.read_without_ne (m : Memory) {a b : Nat} (hne : b ≠ a) :
    (m.without a).read b = m.read b := by
  induction m with
  | nil => rfl
  | cons c m ih =>
    by_cases h : c.1 = a
    · have hb : c.1 ≠ b := fun e => hne (e.symm.trans h)
      simpa [Memory.without, h, Memory.read_cons, Ne.symm hne] using ih
    · simp only [Memory.without, ne_eq, h, not_false_eq_true, List.filter_cons, bne_iff_ne,
        if_true, Memory.read_cons]
      rw [← ih]
      rfl

theorem Memory.read_insertCell_same (m : Memory) (a : Nat) (v : Byte)
    (h : ∀ c ∈ m, c.1 ≠ a) : (m.insertCell a v).read a = v := by
  induction m with
  | nil => simp [Memory.insertCell, Memory.read_cons]
  | cons c m ih =>
    have hc : c.1 ≠ a := h c (by simp)
    have ih' := ih (fun d hd => h d (by simp [hd]))
    by_cases hlt : a < c.1
    · simp [Memory.insertCell, hlt, Memory.read_cons]
    · simp [Memory.insertCell, hlt, Memory.read_cons, hc, ih']

theorem Memory.read_insertCell_ne (m : Memory) {a b : Nat} (v : Byte) (hne : b ≠ a) :
    (m.insertCell a v).read b = m.read b := by
  induction m with
  | nil => simp [Memory.insertCell, Memory.read_cons, Ne.symm hne]
  | cons c m ih =>
    by_cases hlt : a < c.1
    · simp [Memory.insertCell, hlt, Memory.read_cons, Ne.symm hne]
    · simp [Memory.insertCell, hlt, Memory.read_cons, ih]

theorem Memory.fst_ne_of_mem_without {m : Memory} {a : Nat} {c : Host.Cell}
    (h : c ∈ m.without a) : c.1 ≠ a := by
  simpa using (List.mem_filter.mp h).2

/-- A read of the byte just written gives what was written. -/
@[simp] theorem Memory.read_write_same (m : Memory) (a : Nat) (v : Byte) :
    (m.write a v).read a = v := by
  unfold Memory.write
  split
  · next h => rw [Memory.read_without_same, h]
  · exact Memory.read_insertCell_same _ _ _ (fun c hc => Memory.fst_ne_of_mem_without hc)

/-- A write leaves every other byte alone. -/
theorem Memory.read_write_ne (m : Memory) {a b : Nat} (v : Byte) (hne : b ≠ a) :
    (m.write a v).read b = m.read b := by
  unfold Memory.write
  split
  · exact Memory.read_without_ne m hne
  · rw [Memory.read_insertCell_ne _ _ hne, Memory.read_without_ne m hne]

/-- What a read gives after one write. -/
theorem Memory.read_write (m : Memory) (a b : Nat) (v : Byte) :
    (m.write a v).read b = if b = a then v else m.read b := by
  split
  · next h => rw [h, Memory.read_write_same]
  · next h => exact Memory.read_write_ne m v h

/-- What a read gives after `for k in 0 .. n-1: ARR[k] <- f k`. -/
theorem Memory.read_writeAll (m : Memory) (f : Nat → Byte) (n b : Nat) :
    (m.writeAll f n).read b = if b < n then f b else m.read b := by
  induction n with
  | zero => simp [Memory.writeAll]
  | succ n ih =>
    rw [Memory.writeAll, Memory.read_write, ih]
    by_cases hbn : b = n
    · simp [hbn]
    · have : b < n + 1 ↔ b < n := by omega
      simp [hbn, this]

/-- What a read gives after `MemWrite(0, n, v)` (R11). -/
theorem Memory.read_memWrite (m : Memory) (n v b : Nat) :
    (m.memWrite n v).read b = if b < n then BitVec.ofNat 8 (v / 2 ^ (8 * b)) else m.read b :=
  Memory.read_writeAll m _ n b

/-- `MemRead(0, n)` depends on the first `n` bytes only. -/
theorem Memory.memRead_congr {m m' : Memory} {n : Nat}
    (h : ∀ k, k < n → m.read k = m'.read k) : m.memRead n = m'.memRead n := by
  induction n with
  | zero => rfl
  | succ n ih =>
    rw [Memory.memRead, Memory.memRead, ih (fun k hk => h k (by omega)), h n (by omega)]

/-- `MemRead(0, n)` is an `n`-byte integer. -/
theorem Memory.memRead_lt (m : Memory) (n : Nat) : m.memRead n < 2 ^ (8 * n) := by
  induction n with
  | zero => simp [Memory.memRead]
  | succ n ih =>
    rw [Memory.memRead]
    have hb : (m.read n).toNat < 256 := (m.read n).isLt
    have hp : 2 ^ (8 * (n + 1)) = 256 * 2 ^ (8 * n) := by ring
    rw [hp]
    nlinarith [hb, ih, Nat.zero_le (2 ^ (8 * n))]

/-! ### The canonical form -/

theorem Memory.wf_nil : Memory.wf [] := by simp [Memory.wf]

theorem Memory.wf_without {m : Memory} (h : m.wf) (a : Nat) : (m.without a).wf :=
  ⟨h.1.filter _, fun c hc => h.2 c (List.mem_filter.mp hc).1⟩

theorem Memory.mem_insertCell {m : Memory} {a : Nat} {v : Byte} {c : Host.Cell}
    (h : c ∈ m.insertCell a v) : c = (a, v) ∨ c ∈ m := by
  induction m with
  | nil => simpa [Memory.insertCell] using h
  | cons d m ih =>
    rw [Memory.insertCell] at h
    split at h
    · simpa using h
    · rcases List.mem_cons.mp h with rfl | h
      · simp
      · rcases ih h with h | h <;> simp [h]

theorem Memory.wf_insertCell {m : Memory} (h : m.wf) {a : Nat} {v : Byte}
    (ha : ∀ c ∈ m, c.1 ≠ a) (hv : v ≠ Memory.unlisted) : (m.insertCell a v).wf := by
  refine ⟨?_, fun c hc => ?_⟩
  · induction m with
    | nil => simp [Memory.insertCell]
    | cons d m ih =>
      have hd : d.1 ≠ a := ha d (by simp)
      have hp := List.pairwise_cons.mp h.1
      rw [Memory.insertCell]
      split
      · next hlt =>
        refine List.pairwise_cons.mpr ⟨fun c hc => ?_, h.1⟩
        rcases List.mem_cons.mp hc with rfl | hc
        · exact hlt
        · exact lt_trans hlt (hp.1 c hc)
      · next hlt =>
        refine List.pairwise_cons.mpr ⟨fun c hc => ?_, ih ⟨hp.2, fun c hc => h.2 c (by simp [hc])⟩
          (fun c hc => ha c (by simp [hc]))⟩
        rcases Memory.mem_insertCell hc with rfl | hc
        · simp only
          omega
        · exact hp.1 c hc
  · rcases Memory.mem_insertCell hc with rfl | hc
    · exact hv
    · exact h.2 c hc

/-- A write keeps the canonical form. -/
theorem Memory.wf_write {m : Memory} (h : m.wf) (a : Nat) (v : Byte) : (m.write a v).wf := by
  unfold Memory.write
  split
  · exact Memory.wf_without h a
  · next hv =>
    exact Memory.wf_insertCell (Memory.wf_without h a)
      (fun c hc => Memory.fst_ne_of_mem_without hc) hv

/-- Writing every byte of a vector keeps the canonical form. -/
theorem Memory.wf_writeAll {m : Memory} (h : m.wf) (f : Nat → Byte) (n : Nat) :
    (m.writeAll f n).wf := by
  induction n with
  | zero => exact h
  | succ n ih => exact Memory.wf_write ih n (f n)

/-- `MemWrite` keeps the canonical form. -/
theorem Memory.wf_memWrite {m : Memory} (h : m.wf) (n v : Nat) : (m.memWrite n v).wf :=
  Memory.wf_writeAll h _ n

/-- A write lists no byte but those listed before and the one written. -/
theorem Memory.mem_write {m : Memory} {a : Nat} {v : Byte} {c : Host.Cell}
    (h : c ∈ m.write a v) : c.1 = a ∨ c ∈ m := by
  unfold Memory.write at h
  split at h
  · exact .inr (List.mem_filter.mp h).1
  · rcases Memory.mem_insertCell h with rfl | h
    · exact .inl rfl
    · exact .inr (List.mem_filter.mp h).1

/-- Writing the first `n` bytes lists no byte but those listed before and those `n`. -/
theorem Memory.mem_writeAll {m : Memory} {f : Nat → Byte} {n : Nat} {c : Host.Cell}
    (h : c ∈ m.writeAll f n) : c.1 < n ∨ c ∈ m := by
  induction n with
  | zero => exact .inr h
  | succ n ih =>
    rcases Memory.mem_write h with h | h
    · exact .inl (by omega)
    · rcases ih h with h | h
      · exact .inl (by omega)
      · exact .inr h

/-- A byte below every listed one reads as unlisted. -/
theorem Memory.read_eq_unlisted {m : Memory} {a : Nat} (h : ∀ c ∈ m, c.1 ≠ a) :
    m.read a = Memory.unlisted := by
  induction m with
  | nil => rfl
  | cons c m ih =>
    rw [Memory.read_cons, if_neg (h c (by simp))]
    exact ih (fun d hd => h d (by simp [hd]))

/-- Two arrays in canonical form that read the same everywhere are the same list. -/
theorem Memory.ext_of_wf {m m' : Memory} (h : m.wf) (h' : m'.wf)
    (hr : ∀ a, m.read a = m'.read a) : m = m' := by
  induction m generalizing m' with
  | nil =>
    cases m' with
    | nil => rfl
    | cons d m' =>
      have := hr d.1
      rw [Memory.read_cons, if_pos rfl] at this
      exact absurd this.symm (h'.2 d (by simp))
  | cons c m ih =>
    cases m' with
    | nil =>
      have := hr c.1
      rw [Memory.read_cons, if_pos rfl] at this
      exact absurd this (h.2 c (by simp))
    | cons d m' =>
      have hc := List.pairwise_cons.mp h.1
      have hd := List.pairwise_cons.mp h'.1
      have key : c.1 = d.1 := by
        rcases lt_trichotomy c.1 d.1 with hlt | heq | hlt
        · have h1 := hr c.1
          rw [Memory.read_cons, if_pos rfl, Memory.read_eq_unlisted] at h1
          · exact absurd h1 (h.2 c (by simp))
          · intro e he
            rcases List.mem_cons.mp he with rfl | he
            · omega
            · have := hd.1 e he
              omega
        · exact heq
        · have h1 := hr d.1
          rw [Memory.read_cons (c := d), if_pos rfl, Memory.read_eq_unlisted] at h1
          · exact absurd h1.symm (h'.2 d (by simp))
          · intro e he
            rcases List.mem_cons.mp he with rfl | he
            · omega
            · have := hc.1 e he
              omega
      have hv : c.2 = d.2 := by
        have h1 := hr c.1
        rwa [Memory.read_cons, if_pos rfl, Memory.read_cons, if_pos key.symm] at h1
      have hcd : c = d := Prod.ext key hv
      subst hcd
      congr 1
      refine ih ⟨hc.2, fun e he => h.2 e (by simp [he])⟩ ⟨hd.2, fun e he => h'.2 e (by simp [he])⟩
        (fun a => ?_)
      by_cases hca : c.1 = a
      · rw [Memory.read_eq_unlisted, Memory.read_eq_unlisted]
        · intro e he
          have := hd.1 e he
          omega
        · intro e he
          have := hc.1 e he
          omega
      · have h1 := hr a
        rwa [Memory.read_cons, Memory.read_cons, if_neg hca, if_neg hca] at h1

end Sys2Proof.Machine
end

