-- ==== Sys2Proof/Laws/State.lean ====
section
/-! SUPPORT. One lemma per field per named update of the state, so that no later proof
unfolds a record update. -/

namespace Sys2Proof.Machine

@[simp] theorem State.withArr_arr (s : State) (m : Memory) :
    (s.withArr m).arr = m := rfl
@[simp] theorem State.withArr_len (s : State) (m : Memory) :
    (s.withArr m).len = s.len := rfl
@[simp] theorem State.withArr_valid (s : State) (m : Memory) :
    (s.withArr m).valid = s.valid := rfl
@[simp] theorem State.withArr_halt (s : State) (m : Memory) :
    (s.withArr m).halt = s.halt := rfl
@[simp] theorem State.withArr_cause (s : State) (m : Memory) :
    (s.withArr m).cause = s.cause := rfl
@[simp] theorem State.withArr_info (s : State) (m : Memory) :
    (s.withArr m).info = s.info := rfl
@[simp] theorem State.withArr_rxbuf (s : State) (m : Memory) :
    (s.withArr m).rxbuf = s.rxbuf := rfl
@[simp] theorem State.withArr_hostIn (s : State) (m : Memory) :
    (s.withArr m).hostIn = s.hostIn := rfl
@[simp] theorem State.withArr_respOut (s : State) (m : Memory) :
    (s.withArr m).respOut = s.respOut := rfl

@[simp] theorem State.withInstance_arr (s : State) (m : Memory) (nb : Nat) :
    (s.withInstance m nb).arr = m := rfl
@[simp] theorem State.withInstance_len (s : State) (m : Memory) (nb : Nat) :
    (s.withInstance m nb).len = BitVec.ofNat 22 nb := rfl
@[simp] theorem State.withInstance_valid (s : State) (m : Memory) (nb : Nat) :
    (s.withInstance m nb).valid = true := rfl
@[simp] theorem State.withInstance_halt (s : State) (m : Memory) (nb : Nat) :
    (s.withInstance m nb).halt = s.halt := rfl
@[simp] theorem State.withInstance_cause (s : State) (m : Memory) (nb : Nat) :
    (s.withInstance m nb).cause = s.cause := rfl
@[simp] theorem State.withInstance_info (s : State) (m : Memory) (nb : Nat) :
    (s.withInstance m nb).info = s.info := rfl
@[simp] theorem State.withInstance_rxbuf (s : State) (m : Memory) (nb : Nat) :
    (s.withInstance m nb).rxbuf = s.rxbuf := rfl
@[simp] theorem State.withInstance_hostIn (s : State) (m : Memory) (nb : Nat) :
    (s.withInstance m nb).hostIn = s.hostIn := rfl
@[simp] theorem State.withInstance_respOut (s : State) (m : Memory) (nb : Nat) :
    (s.withInstance m nb).respOut = s.respOut := rfl

@[simp] theorem State.withHostIn_arr (s : State) (es : List HostEvent) :
    (s.withHostIn es).arr = s.arr := rfl
@[simp] theorem State.withHostIn_len (s : State) (es : List HostEvent) :
    (s.withHostIn es).len = s.len := rfl
@[simp] theorem State.withHostIn_valid (s : State) (es : List HostEvent) :
    (s.withHostIn es).valid = s.valid := rfl
@[simp] theorem State.withHostIn_halt (s : State) (es : List HostEvent) :
    (s.withHostIn es).halt = s.halt := rfl
@[simp] theorem State.withHostIn_cause (s : State) (es : List HostEvent) :
    (s.withHostIn es).cause = s.cause := rfl
@[simp] theorem State.withHostIn_info (s : State) (es : List HostEvent) :
    (s.withHostIn es).info = s.info := rfl
@[simp] theorem State.withHostIn_rxbuf (s : State) (es : List HostEvent) :
    (s.withHostIn es).rxbuf = s.rxbuf := rfl
@[simp] theorem State.withHostIn_hostIn (s : State) (es : List HostEvent) :
    (s.withHostIn es).hostIn = es := rfl
@[simp] theorem State.withHostIn_respOut (s : State) (es : List HostEvent) :
    (s.withHostIn es).respOut = s.respOut := rfl

@[simp] theorem State.withRxbuf_arr (s : State) (ws : List Word) :
    (s.withRxbuf ws).arr = s.arr := rfl
@[simp] theorem State.withRxbuf_len (s : State) (ws : List Word) :
    (s.withRxbuf ws).len = s.len := rfl
@[simp] theorem State.withRxbuf_valid (s : State) (ws : List Word) :
    (s.withRxbuf ws).valid = s.valid := rfl
@[simp] theorem State.withRxbuf_halt (s : State) (ws : List Word) :
    (s.withRxbuf ws).halt = s.halt := rfl
@[simp] theorem State.withRxbuf_cause (s : State) (ws : List Word) :
    (s.withRxbuf ws).cause = s.cause := rfl
@[simp] theorem State.withRxbuf_info (s : State) (ws : List Word) :
    (s.withRxbuf ws).info = s.info := rfl
@[simp] theorem State.withRxbuf_rxbuf (s : State) (ws : List Word) :
    (s.withRxbuf ws).rxbuf = ws := rfl
@[simp] theorem State.withRxbuf_hostIn (s : State) (ws : List Word) :
    (s.withRxbuf ws).hostIn = s.hostIn := rfl
@[simp] theorem State.withRxbuf_respOut (s : State) (ws : List Word) :
    (s.withRxbuf ws).respOut = s.respOut := rfl

@[simp] theorem respond_arr (w : Word) (p : List Word) (s : State) :
    (respond w p s).arr = s.arr := rfl
@[simp] theorem respond_len (w : Word) (p : List Word) (s : State) :
    (respond w p s).len = s.len := rfl
@[simp] theorem respond_valid (w : Word) (p : List Word) (s : State) :
    (respond w p s).valid = s.valid := rfl
@[simp] theorem respond_halt (w : Word) (p : List Word) (s : State) :
    (respond w p s).halt = s.halt := rfl
@[simp] theorem respond_cause (w : Word) (p : List Word) (s : State) :
    (respond w p s).cause = s.cause := rfl
@[simp] theorem respond_info (w : Word) (p : List Word) (s : State) :
    (respond w p s).info = s.info := rfl
@[simp] theorem respond_rxbuf (w : Word) (p : List Word) (s : State) :
    (respond w p s).rxbuf = [] := rfl
@[simp] theorem respond_hostIn (w : Word) (p : List Word) (s : State) :
    (respond w p s).hostIn = s.hostIn := rfl
@[simp] theorem respond_respOut (w : Word) (p : List Word) (s : State) :
    (respond w p s).respOut = s.respOut ++ responseWord .ok s.valid 0#4 (opField w) :: p := rfl

@[simp] theorem raiseFault_arr (c : Cause) (v w : Word) (s : State) :
    (raiseFault c v w s).arr = s.arr := rfl
@[simp] theorem raiseFault_len (c : Cause) (v w : Word) (s : State) :
    (raiseFault c v w s).len = s.len := rfl
@[simp] theorem raiseFault_valid (c : Cause) (v w : Word) (s : State) :
    (raiseFault c v w s).valid = s.valid := rfl
@[simp] theorem raiseFault_halt (c : Cause) (v w : Word) (s : State) :
    (raiseFault c v w s).halt = true := rfl
@[simp] theorem raiseFault_cause (c : Cause) (v w : Word) (s : State) :
    (raiseFault c v w s).cause = c.code := rfl
@[simp] theorem raiseFault_info (c : Cause) (v w : Word) (s : State) :
    (raiseFault c v w s).info = v := rfl
@[simp] theorem raiseFault_rxbuf (c : Cause) (v w : Word) (s : State) :
    (raiseFault c v w s).rxbuf = [] := rfl
@[simp] theorem raiseFault_hostIn (c : Cause) (v w : Word) (s : State) :
    (raiseFault c v w s).hostIn = s.hostIn := rfl
@[simp] theorem raiseFault_respOut (c : Cause) (v w : Word) (s : State) :
    (raiseFault c v w s).respOut = s.respOut ++ [responseWord .fault s.valid c.code (opField w), v] := rfl

@[simp] theorem rejectError_arr (c : Cause) (v w : Word) (s : State) :
    (rejectError c v w s).arr = s.arr := rfl
@[simp] theorem rejectError_len (c : Cause) (v w : Word) (s : State) :
    (rejectError c v w s).len = s.len := rfl
@[simp] theorem rejectError_valid (c : Cause) (v w : Word) (s : State) :
    (rejectError c v w s).valid = s.valid := rfl
@[simp] theorem rejectError_halt (c : Cause) (v w : Word) (s : State) :
    (rejectError c v w s).halt = s.halt := rfl
@[simp] theorem rejectError_cause (c : Cause) (v w : Word) (s : State) :
    (rejectError c v w s).cause = s.cause := rfl
@[simp] theorem rejectError_info (c : Cause) (v w : Word) (s : State) :
    (rejectError c v w s).info = v := rfl
@[simp] theorem rejectError_rxbuf (c : Cause) (v w : Word) (s : State) :
    (rejectError c v w s).rxbuf = [] := rfl
@[simp] theorem rejectError_hostIn (c : Cause) (v w : Word) (s : State) :
    (rejectError c v w s).hostIn = s.hostIn := rfl
@[simp] theorem rejectError_respOut (c : Cause) (v w : Word) (s : State) :
    (rejectError c v w s).respOut = s.respOut ++ [responseWord .error s.valid c.code (opField w), v] := rfl

@[simp] theorem resetBlock_arr (s : State) :
    (resetBlock s).arr = s.arr := rfl
@[simp] theorem resetBlock_len (s : State) :
    (resetBlock s).len = 0#22 := rfl
@[simp] theorem resetBlock_valid (s : State) :
    (resetBlock s).valid = false := rfl
@[simp] theorem resetBlock_halt (s : State) :
    (resetBlock s).halt = false := rfl
@[simp] theorem resetBlock_cause (s : State) :
    (resetBlock s).cause = 0#4 := rfl
@[simp] theorem resetBlock_info (s : State) :
    (resetBlock s).info = 0#32 := rfl
@[simp] theorem resetBlock_rxbuf (s : State) :
    (resetBlock s).rxbuf = [] := rfl
@[simp] theorem resetBlock_hostIn (s : State) :
    (resetBlock s).hostIn = s.hostIn := rfl
@[simp] theorem resetBlock_respOut (s : State) :
    (resetBlock s).respOut = s.respOut := rfl

end Sys2Proof.Machine
end

