-- ==== Sys2Proof/Laws/Ops.lean ====
section
/-! SUPPORT. For each shared operation, once, everything it can do: on a halted block
nothing, else the faults of its checks in R223's order, else its effect. -/

namespace Sys2Proof.Machine

/-- An answer is one next state. -/
theorem next_eq_next {a t : State} : ((.next a : Result) = .next t) ↔ t = a :=
  ⟨fun h => (Host.Outcome.next.inj h).symm, fun h => by rw [h]⟩

/-! ### The checks -/

theorem whileRunning_of_running {s : State} (h : s.halt = false) (run : Result) :
    whileRunning s run = run := by simp [whileRunning, h]

theorem whileRunning_of_halted {s : State} (h : s.halt = true) (run : Result) :
    whileRunning s run = .fault .halted := by simp [whileRunning, h]

theorem whileRunning_next {s t : State} {run : Result} :
    whileRunning s run = .next t ↔ s.halt = false ∧ run = .next t := by
  cases h : s.halt <;> simp [whileRunning, h]

theorem withInstanceOf_of_running {s : State} (h : s.halt = false) (w : Word) (run : Result) :
    withInstanceOf w s run =
      if s.valid then run else .next (raiseFault .noInstance w w s) := by
  simp [withInstanceOf, whileRunning_of_running h]

theorem withInstanceOf_of_halted {s : State} (h : s.halt = true) (w : Word) (run : Result) :
    withInstanceOf w s run = .fault .halted := whileRunning_of_halted h _

/-- All that a command that needs an instance can do. -/
theorem withInstanceOf_next {w : Word} {s t : State} {run : Result} :
    withInstanceOf w s run = .next t ↔
      s.halt = false ∧
        ((s.valid = false ∧ t = raiseFault .noInstance w w s) ∨ (s.valid = true ∧ run = .next t)) := by
  rw [withInstanceOf, whileRunning_next]
  cases h : s.valid <;> simp [eq_comm (b := t)]

/-- All that a per-bit command can do. -/
theorem withBitIndex_next {w : Word} {i : BitVec 24} {s t : State} {run : Result} :
    withBitIndex w i s run = .next t ↔
      s.halt = false ∧
        ((s.valid = false ∧ t = raiseFault .noInstance w w s) ∨
         (s.valid = true ∧ 8 * s.length ≤ i.toNat ∧
            t = raiseFault .indexRange (indexWord i) w s) ∨
         (s.valid = true ∧ i.toNat < 8 * s.length ∧ run = .next t)) := by
  rw [withBitIndex, withInstanceOf_next]
  by_cases h : i.toNat < 8 * s.length
  · simp [h, Nat.not_le.mpr h]
  · simp [h, Nat.not_lt.mp h, eq_comm (b := t)]

/-- All that an unchecked read can do. -/
theorem withBytes_next {n : Nat} {w : Word} {s t : State} {run : Result} :
    withBytes n w s run = .next t ↔
      s.halt = false ∧
        ((s.valid = false ∧ t = raiseFault .noInstance w w s) ∨
         (s.valid = true ∧ s.length < n ∧ t = raiseFault .shortRead s.lenWord w s) ∨
         (s.valid = true ∧ n ≤ s.length ∧ run = .next t)) := by
  rw [withBytes, withInstanceOf_next]
  by_cases h : s.length < n
  · simp [h, Nat.not_le.mpr h, eq_comm (b := t)]
  · simp [h, Nat.not_lt.mp h]

/-! ### The shared effects -/

/-- All that SET, CLR and FLIP can do. -/
theorem updateBit_next {w : Word} {i : BitVec 24} {f : Byte → Byte} {s t : State} :
    updateBit w i f s = .next t ↔
      s.halt = false ∧
        ((s.valid = false ∧ t = raiseFault .noInstance w w s) ∨
         (s.valid = true ∧ 8 * s.length ≤ i.toNat ∧
            t = raiseFault .indexRange (indexWord i) w s) ∨
         (s.valid = true ∧ i.toNat < 8 * s.length ∧
            t = respond w [] (s.withArr
              (s.arr.write (byteIndex i) (f (s.arr.read (byteIndex i))))))) := by
  rw [updateBit, withBitIndex_next]
  simp only [next_eq_next]

/-- All that the bulk and the mask commands can do. -/
theorem updateAll_next {w : Word} {f : Nat → Byte → Byte} {s t : State} :
    updateAll w f s = .next t ↔
      s.halt = false ∧
        ((s.valid = false ∧ t = raiseFault .noInstance w w s) ∨
         (s.valid = true ∧
            t = respond w [] (s.withArr
              (s.arr.writeAll (fun k => f k (s.arr.read k)) s.length)))) := by
  rw [updateAll, withInstanceOf_next]
  simp only [next_eq_next]

/-- All that NEW can do on an array of `cap` bytes. -/
theorem newWithin_next {cap : Nat} {d0 : Word} {s t : State} :
    newWithin cap d0 s = .next t ↔
      s.halt = false ∧
        ((bitCount d0 ≤ 0 ∧ t = rejectError .badLength d0 (Instr.new d0).commandWord s) ∨
         (0 < bitCount d0 ∧ cap < byteCount d0 ∧
            t = rejectError .capacity d0 (Instr.new d0).commandWord s) ∨
         (0 < bitCount d0 ∧ byteCount d0 ≤ cap ∧
            t = respond (Instr.new d0).commandWord [] (s.withInstance
              (s.arr.writeAll (fun _ => 0x00#8) (byteCount d0)) (byteCount d0)))) := by
  rw [newWithin, whileRunning_next]
  by_cases h : bitCount d0 ≤ 0
  · simp [h, not_lt.mpr h, eq_comm (b := t)]
  · by_cases hc : cap < byteCount d0
    · simp [h, not_le.mp h, hc, Nat.not_le.mpr hc, eq_comm (b := t)]
    · simp [h, not_le.mp h, hc, Nat.not_lt.mp hc, eq_comm (b := t)]

/-! ### Operands -/

/-- A bit index is its byte index and its bit offset (R24). -/
theorem byteIndex_bitOffset (i : BitVec 24) : 8 * byteIndex i + bitOffset i = i.toNat :=
  Nat.div_add_mod i.toNat 8

theorem bitOffset_lt (i : BitVec 24) : bitOffset i < 8 := Nat.mod_lt _ (by decide)

/-- The one bit that `1 << b` has (R121). -/
theorem getLsbD_bitMask (i : BitVec 24) (k : Nat) (hk : k < 8) :
    (bitMask i).getLsbD k = decide (k = bitOffset i) := by
  have h := bitOffset_lt i
  rw [bitMask]
  generalize bitOffset i = b at h
  revert b k
  decide

/-- `CAP_BYTES` fits LEN's 22 bits (R22). -/
theorem toNat_length_of_le {nb : Nat} (h : nb ≤ Config.capBytes) :
    (BitVec.ofNat 22 nb).toNat = nb := by
  have := Config.capBytes_le
  rw [BitVec.toNat_ofNat, Nat.mod_eq_of_lt (by omega)]

/-- The missing bytes of a mask are zero (R160). -/
theorem maskByte_of_le {mask : List Byte} {k : Nat} (h : mask.length ≤ k) :
    maskByte mask k = 0x00#8 := by
  simp [maskByte, List.getD, List.getElem?_eq_none h]

/-! ### The response word -/

/-- R76's formula for the response word. -/
theorem responseWord_eq (kind : Kind) (valid : Bool) (cause : BitVec 4) (op : BitVec 8) :
    responseWord kind valid cause op =
      BitVec.ofNat 32
        (kind.code.toNat + 4 * valid.toNat + 16 * cause.toNat + 256 * op.toNat) := by
  apply BitVec.eq_of_toNat_eq
  have hc := cause.isLt
  have ho := op.isLt
  have hk := kind.code.isLt
  have hv : valid.toNat < 2 := by cases valid <;> decide
  rw [BitVec.toNat_ofNat, Nat.mod_eq_of_lt (by omega)]
  simp only [responseWord, BitVec.toNat_append, BitVec.toNat_ofBool, BitVec.toNat_ofNat]
  have e : ∀ (a b m : Nat), b < 2 ^ m → a <<< m ||| b = a * 2 ^ m + b := fun a b m h => by
    rw [← Nat.shiftLeft_add_eq_or_of_lt h, Nat.shiftLeft_eq]
  simp only [Nat.zero_mod, Nat.zero_shiftLeft, Nat.zero_or]
  rw [e _ _ 4 hc, e _ 0 1 (by norm_num), e _ _ 1 (by simpa using hv), e _ _ 2 hk]
  omega

end Sys2Proof.Machine
end

