-- ==== Sys2Proof/Laws/Ends.lean ====
section
/-! SUPPORT. How `respond`, `raiseFault` and `rejectError` end a command, in the terms of
Safety.lean. -/

namespace Sys2Proof.Machine

/-! ### The cause codes (R221) -/

@[simp] theorem Cause.toNat_code_illegalCmd : Cause.illegalCmd.code.toNat = 1 := rfl
@[simp] theorem Cause.toNat_code_noInstance : Cause.noInstance.code.toNat = 2 := rfl
@[simp] theorem Cause.toNat_code_indexRange : Cause.indexRange.code.toNat = 3 := rfl
@[simp] theorem Cause.toNat_code_shortRead : Cause.shortRead.code.toNat = 4 := rfl
@[simp] theorem Cause.toNat_code_badLength : Cause.badLength.code.toNat = 5 := rfl
@[simp] theorem Cause.toNat_code_capacity : Cause.capacity.code.toNat = 6 := rfl

/-! ### The three ends -/

/-- The OK response word in R76's formula. -/
theorem responseWord_ok (valid : Bool) (op : BitVec 8) :
    responseWord .ok valid 0#4 op = responseValue 0 valid.toNat 0 op.toNat := by
  simp [responseWord_eq, responseValue, Kind.code]

/-- The ERROR response word in R76's formula. -/
theorem responseWord_error (valid : Bool) (cause : BitVec 4) (op : BitVec 8) :
    responseWord .error valid cause op = responseValue 1 valid.toNat cause.toNat op.toNat := by
  simp [responseWord_eq, responseValue, Kind.code]

/-- The FAULT response word in R76's formula. -/
theorem responseWord_fault (valid : Bool) (cause : BitVec 4) (op : BitVec 8) :
    responseWord .fault valid cause op = responseValue 2 valid.toNat cause.toNat op.toNat := by
  simp [responseWord_eq, responseValue, Kind.code]

/-- `respond` ends the command OK. -/
theorem endsOk_respond (w : Word) (payload : List Word) (s : State) :
    EndsOk (opField w).toNat payload s (respond w payload s) := by
  simp [EndsOk, responseWord_ok]

/-- `respond` after a change of ARR ends the command OK. -/
theorem endsOk_respond_withArr (w : Word) (payload : List Word) (s : State) (m : Memory) :
    EndsOk (opField w).toNat payload s (respond w payload (s.withArr m)) := by
  simp [EndsOk, responseWord_ok]

/-- `respond` after a new instance ends the command OK. -/
theorem endsOk_respond_withInstance (w : Word) (payload : List Word) (s : State) (m : Memory)
    (nb : Nat) : EndsOk (opField w).toNat payload s (respond w payload (s.withInstance m nb)) := by
  simp [EndsOk, responseWord_ok]

/-- `raiseFault` ends the command in a fault (R224). -/
theorem endsFault_raiseFault (cause : Cause) (info w : Word) (s : State) :
    EndsFault cause.code.toNat (opField w).toNat info s (raiseFault cause info w s) := by
  simp [EndsFault, responseWord_fault]

/-- `rejectError` ends the command in an error (R225). -/
theorem endsError_rejectError (cause : Cause) (info w : Word) (s : State) :
    EndsError cause.code.toNat (opField w).toNat info s (rejectError cause info w s) := by
  simp [EndsError, responseWord_error]

end Sys2Proof.Machine
end

