-- ==== Sys2Proof/Laws/Exec.lean ====
section
/-! SUPPORT. Everything a command can do, once: the six kinds of next state there are. -/

namespace Sys2Proof.Machine

/-! ### Each command as its shared operation -/

theorem exec_new (d0 : Word) (s : State) : exec (.new d0) s = newWithin Config.capBytes d0 s := rfl
theorem exec_set (k : BitVec 24) (s : State) :
    exec (.set k) s = updateBit (Instr.set k).commandWord k (fun v => v ||| bitMask k) s := rfl
theorem exec_clr (k : BitVec 24) (s : State) :
    exec (.clr k) s = updateBit (Instr.clr k).commandWord k (fun v => v &&& ~~~bitMask k) s := rfl
theorem exec_flip (k : BitVec 24) (s : State) :
    exec (.flip k) s = updateBit (Instr.flip k).commandWord k (fun v => v ^^^ bitMask k) s := rfl
theorem exec_clrall (s : State) :
    exec .clrall s = updateAll Instr.clrall.commandWord (fun _ _ => 0x00#8) s := rfl
theorem exec_setall (s : State) :
    exec .setall s = updateAll Instr.setall.commandWord (fun _ _ => 0xFF#8) s := rfl
theorem exec_not (s : State) :
    exec .not s = updateAll Instr.not.commandWord (fun _ v => v ^^^ 0xFF#8) s := rfl
theorem exec_and (mask : List Byte) (s : State) :
    exec (.and mask) s =
      updateAll (Instr.and mask).commandWord (fun idx v => v &&& maskByte mask idx) s := rfl
theorem exec_or (mask : List Byte) (s : State) :
    exec (.or mask) s =
      updateAll (Instr.or mask).commandWord (fun idx v => v ||| maskByte mask idx) s := rfl
theorem exec_xor (mask : List Byte) (s : State) :
    exec (.xor mask) s =
      updateAll (Instr.xor mask).commandWord (fun idx v => v ^^^ maskByte mask idx) s := rfl

/-! ### What a command can do -/

/-- The next states of command `i` from a running block `s`. -/
inductive ExecEffect (i : Instr) (s : State) : State → Prop where
  /-- A fault, of a command that is no constructor (R222). -/
  | faulted (c : Cause) (info : Word) (hi : isConstructor i = false)
      (hc : 1 ≤ c.code.toNat ∧ c.code.toNat ≤ 4) :
      ExecEffect i s (raiseFault c info i.commandWord s)
  /-- An error, of a constructor (R222). -/
  | rejected (c : Cause) (info : Word) (hi : isConstructor i = true) :
      ExecEffect i s (rejectError c info i.commandWord s)
  /-- An answer that changes nothing (R48). -/
  | answered (payload : List Word) (hi : isConstructor i = false) (hv : s.valid = true) :
      ExecEffect i s (respond i.commandWord payload s)
  /-- One byte of the vector changed (R121 to R123). -/
  | wroteByte (k : Nat) (v : Byte) (hi : isConstructor i = false) (hv : s.valid = true)
      (hk : k < s.length) :
      ExecEffect i s (respond i.commandWord [] (s.withArr (s.arr.write k v)))
  /-- Every byte of the vector changed (R140, R160). -/
  | wroteAll (f : Nat → Byte) (hi : isConstructor i = false) (hv : s.valid = true) :
      ExecEffect i s (respond i.commandWord [] (s.withArr (s.arr.writeAll f s.length)))
  /-- A new instance (R101 to R103). -/
  | constructed (f : Nat → Byte) (nb : Nat) (hi : isConstructor i = true) (hpos : 0 < nb)
      (hcap : nb ≤ Config.capBytes) :
      ExecEffect i s (respond i.commandWord [] (s.withInstance (s.arr.writeAll f nb) nb))

theorem updateBit_effect {i : Instr} {k : BitVec 24} {f : Byte → Byte} {s t : State}
    (hi : isConstructor i = false) (h : updateBit i.commandWord k f s = .next t) :
    s.halt = false ∧ ExecEffect i s t := by
  rcases updateBit_next.mp h with ⟨hh, ⟨_, rfl⟩ | ⟨_, _, rfl⟩ | ⟨hv, hk, rfl⟩⟩
  · exact ⟨hh, .faulted .noInstance _ hi (by simp)⟩
  · exact ⟨hh, .faulted .indexRange _ hi (by simp)⟩
  · exact ⟨hh, .wroteByte _ _ hi hv (by unfold byteIndex; omega)⟩

theorem updateAll_effect {i : Instr} {f : Nat → Byte → Byte} {s t : State}
    (hi : isConstructor i = false) (h : updateAll i.commandWord f s = .next t) :
    s.halt = false ∧ ExecEffect i s t := by
  rcases updateAll_next.mp h with ⟨hh, ⟨_, rfl⟩ | ⟨hv, rfl⟩⟩
  · exact ⟨hh, .faulted .noInstance _ hi (by simp)⟩
  · exact ⟨hh, .wroteAll _ hi hv⟩

theorem withInstanceOf_effect {i : Instr} {payload : List Word} {s t : State}
    (hi : isConstructor i = false)
    (h : withInstanceOf i.commandWord s (.next (respond i.commandWord payload s)) = .next t) :
    s.halt = false ∧ ExecEffect i s t := by
  rcases withInstanceOf_next.mp h with ⟨hh, ⟨_, rfl⟩ | ⟨hv, h⟩⟩
  · exact ⟨hh, .faulted .noInstance _ hi (by simp)⟩
  · cases h
    exact ⟨hh, .answered _ hi hv⟩

theorem withBitIndex_effect {i : Instr} {k : BitVec 24} {payload : List Word} {s t : State}
    (hi : isConstructor i = false)
    (h : withBitIndex i.commandWord k s (.next (respond i.commandWord payload s)) = .next t) :
    s.halt = false ∧ ExecEffect i s t := by
  rcases withBitIndex_next.mp h with ⟨hh, ⟨_, rfl⟩ | ⟨_, _, rfl⟩ | ⟨hv, _, h⟩⟩
  · exact ⟨hh, .faulted .noInstance _ hi (by simp)⟩
  · exact ⟨hh, .faulted .indexRange _ hi (by simp)⟩
  · cases h
    exact ⟨hh, .answered _ hi hv⟩

theorem withBytes_effect {i : Instr} {n : Nat} {payload : List Word} {s t : State}
    (hi : isConstructor i = false)
    (h : withBytes n i.commandWord s (.next (respond i.commandWord payload s)) = .next t) :
    s.halt = false ∧ ExecEffect i s t := by
  rcases withBytes_next.mp h with ⟨hh, ⟨_, rfl⟩ | ⟨_, _, rfl⟩ | ⟨hv, _, h⟩⟩
  · exact ⟨hh, .faulted .noInstance _ hi (by simp)⟩
  · exact ⟨hh, .faulted .shortRead _ hi (by simp)⟩
  · cases h
    exact ⟨hh, .answered _ hi hv⟩

theorem seed_effect {i : Instr} {n v : Nat} {s t : State} (hi : isConstructor i = true)
    (hpos : 0 < n) (hn : n ≤ 8)
    (h : whileRunning s
      (.next (respond i.commandWord [] (s.withInstance (s.arr.memWrite n v) n))) = .next t) :
    s.halt = false ∧ ExecEffect i s t := by
  obtain ⟨hh, h⟩ := whileRunning_next.mp h
  cases h
  exact ⟨hh, .constructed _ n hi hpos (le_trans hn Config.eight_le_capBytes)⟩

/-- Everything a command that answers a next state can have done. -/
theorem exec_next_effect {i : Instr} {s t : State} (h : exec i s = .next t) :
    s.halt = false ∧ ExecEffect i s t := by
  cases i with
  | new d0 =>
    rcases newWithin_next.mp h with ⟨hh, ⟨_, rfl⟩ | ⟨_, _, rfl⟩ | ⟨hn, hc, rfl⟩⟩
    · exact ⟨hh, .rejected _ _ rfl⟩
    · exact ⟨hh, .rejected _ _ rfl⟩
    · exact ⟨hh, .constructed _ _ rfl (by unfold byteCount; omega) hc⟩
  | ldu32 seed => exact seed_effect rfl (by decide) (by decide) h
  | ldu64 seed => exact seed_effect rfl (by decide) (by decide) h
  | set k => exact updateBit_effect rfl (exec_set .. ▸ h)
  | clr k => exact updateBit_effect rfl (exec_clr .. ▸ h)
  | flip k => exact updateBit_effect rfl (exec_flip .. ▸ h)
  | test k => exact withBitIndex_effect rfl h
  | clrall => exact updateAll_effect rfl (exec_clrall .. ▸ h)
  | setall => exact updateAll_effect rfl (exec_setall .. ▸ h)
  | not => exact updateAll_effect rfl (exec_not .. ▸ h)
  | and mask => exact updateAll_effect rfl (exec_and .. ▸ h)
  | or mask => exact updateAll_effect rfl (exec_or .. ▸ h)
  | xor mask => exact updateAll_effect rfl (exec_xor .. ▸ h)
  | rdu32 => exact withBytes_effect rfl h
  | rdu32s => exact withInstanceOf_effect rfl h
  | rdu64 => exact withBytes_effect rfl h
  | rdu64s => exact withInstanceOf_effect rfl h
  | size => exact withInstanceOf_effect rfl h

end Sys2Proof.Machine
end

