-- ==== Sys2Proof/Laws/Integers.lean ====
section
/-! SUPPORT. The integer view of ARR: `MemRead` as its bytes side by side, `MemWrite` as
the bytes of a word, and single bits of both (R40, R41, R43). -/

namespace Sys2Proof.Machine

/-- Two bit vectors side by side, as a number. -/
theorem toNat_append_eq {m n : Nat} (a : BitVec m) (b : BitVec n) :
    (a ++ b).toNat = a.toNat * 2 ^ n + b.toNat := by
  rw [BitVec.toNat_append, ← Nat.shiftLeft_add_eq_or_of_lt b.isLt, Nat.shiftLeft_eq]

/-- `MemRead(0, 4)` is bytes 3 to 0 side by side (R181). -/
theorem memRead_four (m : Memory) :
    BitVec.ofNat 32 (m.memRead 4) = m.read 3 ++ m.read 2 ++ m.read 1 ++ m.read 0 := by
  apply BitVec.eq_of_toNat_eq
  have h := m.memRead_lt 4
  rw [BitVec.toNat_ofNat, Nat.mod_eq_of_lt (by simpa using h)]
  simp only [toNat_append_eq, Memory.memRead]
  ring

/-- Bit `j` of `MemRead(0, n)` is bit `j % 8` of byte `j / 8` (R43). -/
theorem testBit_memRead (m : Memory) (n j : Nat) :
    (m.memRead n).testBit j = (decide (j < 8 * n) && (m.read (j / 8)).getLsbD (j % 8)) := by
  induction n with
  | zero => simp [Memory.memRead]
  | succ n ih =>
    rw [Memory.memRead, Nat.add_comm, Nat.mul_comm, Nat.testBit_two_pow_mul_add _ (m.memRead_lt n)]
    by_cases h : j < 8 * n
    · rw [if_pos h, ih]
      simp [h, show j < 8 * (n + 1) by omega]
    · rw [if_neg h]
      by_cases h2 : j < 8 * (n + 1)
      · have e1 : j / 8 = n := by omega
        have e2 : j % 8 = j - 8 * n := by omega
        simp [h2, e1, e2, BitVec.testBit_toNat]
      · have : (m.read n).getLsbD (j - 8 * n) = false := BitVec.getLsbD_of_ge _ _ (by omega)
        simp [h2, BitVec.testBit_toNat, this]

/-- Byte `k` that `MemWrite` stores of a bit vector is its bits `8k+7 : 8k` (R40). -/
theorem ofNat_byte_of_toNat {n : Nat} (v : BitVec n) (k : Nat) :
    BitVec.ofNat 8 (v.toNat / 2 ^ (8 * k)) = v.extractLsb' (8 * k) 8 := by
  ext j hj
  rw [BitVec.getElem_extractLsb', ← BitVec.getLsbD_eq_getElem, BitVec.getLsbD_ofNat,
    Nat.testBit_div_two_pow, BitVec.testBit_toNat]
  simp [hj, Nat.add_comm]

end Sys2Proof.Machine
end

