-- ==== Sys2Proof/Laws/PerInstr.lean ====
section
/-! SUPPORT. One fact per command, for statements about all of them: the command word
alone says how many words the command has (R67). -/

namespace Sys2Proof.Laws

/-- The command word of a sendable command is legal and gives the number of its words. -/
def EncodedLength.Statement (i : Instr) : Prop :=
  i.wellFormed = true → commandLength i.commandWord = some (encode i).length

theorem EncodedLength.new (d0 : Word) : EncodedLength.Statement (.new d0) := fun _ => by
  simp [commandLength, shapeOf, Instr.opcode, Instr.arg, Instr.dataWords]
theorem EncodedLength.ldu32 (seed : Word) : EncodedLength.Statement (.ldu32 seed) := fun _ => by
  simp [commandLength, shapeOf, Instr.opcode, Instr.arg, Instr.dataWords]
theorem EncodedLength.ldu64 (seed : BitVec 64) : EncodedLength.Statement (.ldu64 seed) :=
  fun _ => by simp [commandLength, shapeOf, Instr.opcode, Instr.arg, Instr.dataWords]
theorem EncodedLength.set (i : BitVec 24) : EncodedLength.Statement (.set i) := fun _ => by
  simp [commandLength, shapeOf, Instr.opcode, Instr.dataWords]
theorem EncodedLength.clr (i : BitVec 24) : EncodedLength.Statement (.clr i) := fun _ => by
  simp [commandLength, shapeOf, Instr.opcode, Instr.dataWords]
theorem EncodedLength.flip (i : BitVec 24) : EncodedLength.Statement (.flip i) := fun _ => by
  simp [commandLength, shapeOf, Instr.opcode, Instr.dataWords]
theorem EncodedLength.test (i : BitVec 24) : EncodedLength.Statement (.test i) := fun _ => by
  simp [commandLength, shapeOf, Instr.opcode, Instr.dataWords]
theorem EncodedLength.clrall : EncodedLength.Statement .clrall := fun _ => by decide
theorem EncodedLength.setall : EncodedLength.Statement .setall := fun _ => by decide
theorem EncodedLength.not : EncodedLength.Statement .not := fun _ => by decide
theorem EncodedLength.and (mask : List Byte) : EncodedLength.Statement (.and mask) := fun h => by
  simp [commandLength, shapeOf, Instr.opcode, Instr.arg, Instr.dataWords, length_packMask,
    toNat_maskLength h, -BitVec.toNat_ofNat, Nat.add_comm]
theorem EncodedLength.or (mask : List Byte) : EncodedLength.Statement (.or mask) := fun h => by
  simp [commandLength, shapeOf, Instr.opcode, Instr.arg, Instr.dataWords, length_packMask,
    toNat_maskLength h, -BitVec.toNat_ofNat, Nat.add_comm]
theorem EncodedLength.xor (mask : List Byte) : EncodedLength.Statement (.xor mask) := fun h => by
  simp [commandLength, shapeOf, Instr.opcode, Instr.arg, Instr.dataWords, length_packMask,
    toNat_maskLength h, -BitVec.toNat_ofNat, Nat.add_comm]
theorem EncodedLength.rdu32 : EncodedLength.Statement .rdu32 := fun _ => by decide
theorem EncodedLength.rdu32s : EncodedLength.Statement .rdu32s := fun _ => by decide
theorem EncodedLength.rdu64 : EncodedLength.Statement .rdu64 := fun _ => by decide
theorem EncodedLength.rdu64s : EncodedLength.Statement .rdu64s := fun _ => by decide
theorem EncodedLength.size : EncodedLength.Statement .size := fun _ => by decide

end Sys2Proof.Laws
end

