-- ==== Sys2Proof/Laws/Step.lean ====
section
/-! SUPPORT. What one step can do, once: take a reset, hold a word, fault on an illegal
command word, run a command, or wait. -/

namespace Sys2Proof.Machine

/-- What taking a word can do (R67, R69, R70). -/
theorem receive_cases (w : Word) (s : State) :
    (∃ why c, decode (s.rxbuf ++ [w]) = .illegal why c ∧
        receive w s = .took (raiseFault .illegalCmd c c s)) ∨
    (decode (s.rxbuf ++ [w]) = .incomplete ∧
        receive w s = .took (s.withRxbuf (s.rxbuf ++ [w]))) ∨
    (∃ i rest, decode (s.rxbuf ++ [w]) = .complete i rest ∧
        receive w s = .run i (s.withRxbuf (s.rxbuf ++ [w]))) := by
  unfold receive
  cases decode (s.rxbuf ++ [w]) with
  | illegal why c => exact .inl ⟨why, c, rfl, rfl⟩
  | incomplete => exact .inr (.inl ⟨rfl, rfl⟩)
  | complete i rest => exact .inr (.inr ⟨i, rest, rfl, rfl⟩)

/-- A halted block with no reset to come (R227). -/
theorem fetch_halted {s : State} (h : s.halt = true) (hr : HostEvent.reset ∉ s.hostIn) :
    fetch s = .stuck := by simp [fetch, h, hr]

/-- A halted block with a reset to come (R228). -/
theorem fetch_halted_reset {s : State} (h : s.halt = true) (hr : HostEvent.reset ∈ s.hostIn) :
    fetch s = .took (resetBlock (s.withHostIn (s.hostIn.erase HostEvent.reset))) := by
  simp [fetch, h, hr]

/-- A running block with nothing offered. -/
theorem fetch_idle {s : State} (h : s.halt = false) (he : s.hostIn = []) :
    fetch s = .took s := by simp [fetch, h, he]

/-- A running block that is reset (R260). -/
theorem fetch_reset {s : State} {rest : List HostEvent} (h : s.halt = false)
    (he : s.hostIn = .reset :: rest) : fetch s = .took (resetBlock (s.withHostIn rest)) := by
  simp [fetch, h, he]

/-- A running block that is offered a word (R233). -/
theorem fetch_word {s : State} {w : Word} {rest : List HostEvent} (h : s.halt = false)
    (he : s.hostIn = .word w :: rest) : fetch s = receive w (s.withHostIn rest) := by
  simp [fetch, h, he]

/-- Everything a step that answers a next state can have done. -/
theorem step_next_cases {s t : State} (h : step s = .next t) :
    (s.halt = true ∧ HostEvent.reset ∈ s.hostIn ∧
        t = resetBlock (s.withHostIn (s.hostIn.erase HostEvent.reset))) ∨
    (s.halt = false ∧ s.hostIn = [] ∧ t = s) ∨
    (∃ rest, s.halt = false ∧ s.hostIn = .reset :: rest ∧
        t = resetBlock (s.withHostIn rest)) ∨
    (∃ w rest why c, s.halt = false ∧ s.hostIn = .word w :: rest ∧
        decode (s.rxbuf ++ [w]) = .illegal why c ∧
        t = raiseFault .illegalCmd c c (s.withHostIn rest)) ∨
    (∃ w rest, s.halt = false ∧ s.hostIn = .word w :: rest ∧
        decode (s.rxbuf ++ [w]) = .incomplete ∧
        t = (s.withHostIn rest).withRxbuf (s.rxbuf ++ [w])) ∨
    (∃ w rest i more, s.halt = false ∧ s.hostIn = .word w :: rest ∧
        decode (s.rxbuf ++ [w]) = .complete i more ∧
        exec i ((s.withHostIn rest).withRxbuf (s.rxbuf ++ [w])) = .next t) := by
  cases hh : s.halt with
  | true =>
    by_cases hr : HostEvent.reset ∈ s.hostIn
    · rw [step, fetch_halted_reset hh hr] at h
      exact .inl ⟨rfl, hr, (Host.Outcome.next.inj h).symm⟩
    · rw [step, fetch_halted hh hr] at h
      cases h
  | false =>
    cases he : s.hostIn with
    | nil =>
      rw [step, fetch_idle hh he] at h
      exact .inr (.inl ⟨rfl, rfl, (Host.Outcome.next.inj h).symm⟩)
    | cons e rest =>
      cases e with
      | reset =>
        rw [step, fetch_reset hh he] at h
        exact .inr (.inr (.inl ⟨rest, rfl, rfl, (Host.Outcome.next.inj h).symm⟩))
      | word w =>
        rw [step, fetch_word hh he] at h
        rcases receive_cases w (s.withHostIn rest) with
          ⟨why, c, hd, hr⟩ | ⟨hd, hr⟩ | ⟨i, more, hd, hr⟩
        · rw [hr] at h
          exact .inr (.inr (.inr (.inl
            ⟨w, rest, why, c, rfl, rfl, hd, (Host.Outcome.next.inj h).symm⟩)))
        · rw [hr] at h
          exact .inr (.inr (.inr (.inr (.inl
            ⟨w, rest, rfl, rfl, hd, (Host.Outcome.next.inj h).symm⟩))))
        · rw [hr] at h
          exact .inr (.inr (.inr (.inr (.inr ⟨w, rest, i, more, rfl, rfl, hd, h⟩))))

/-- A run of no steps. -/
theorem run_zero (s : State) : Sys2Proof.core.run 0 s = .next s := rfl

/-- A run goes on from the next state of its first step. -/
theorem run_succ_of_next {s t : State} (n : Nat) (h : step s = .next t) :
    Sys2Proof.core.run (n + 1) s = Sys2Proof.core.run n t := by
  have h' : Sys2Proof.core.step s = .next t := h
  simp only [Host.Core.run, h']

/-- A run ends where a step has no next state. -/
theorem run_succ_of_fault {s : State} {r : Fault} (n : Nat) (h : step s = .fault r) :
    Sys2Proof.core.run (n + 1) s = .fault r := by
  have h' : Sys2Proof.core.step s = .fault r := h
  simp only [Host.Core.run, h']

/-- A run ends where a step is refused. -/
theorem run_succ_of_refused {s : State} {r : Refusal} (n : Nat) (h : step s = .refused r) :
    Sys2Proof.core.run (n + 1) s = .refused r := by
  have h' : Sys2Proof.core.step s = .refused r := h
  simp only [Host.Core.run, h']

/-- A run of one step is that step. -/
theorem run_one (s : State) : Sys2Proof.core.run 1 s = step s := by
  cases h : step s with
  | next t => exact run_succ_of_next 0 h
  | fault r => exact run_succ_of_fault 0 h
  | refused r => exact run_succ_of_refused 0 h

/-- Decoding depends on nothing but the words, so a placed command fetches as a received
one: its words but the last are in RXBUF and the last is offered. -/
theorem placeCommand_of_ne_nil {words : List Word} (h : words ≠ []) (s : State) :
    placeCommand words s =
      (s.withRxbuf words.dropLast).withHostIn (.word (words.getLast h) :: s.hostIn) := by
  simp [placeCommand, List.getLast?_eq_some_getLast h]

end Sys2Proof.Machine
end

