-- ==== Sys2Proof/Tests/Slice0.lean ====
section
/-! SUPPORT. Small tests: which commands can be sent, every command's words written out
from the tables of 30_encoding.md, one step per command with the values of
95_test_vectors.md, and states that meet the hypotheses of the obligations. -/

namespace Sys2Proof.Tests

open Sys2Proof.Machine

/-! ### Helpers -/

/-- A running block whose instance holds `bytes`, byte 0 first. -/
def vec (bytes : List Byte) : State :=
  State.reset.withInstance (Memory.writeAll [] (fun k => bytes.getD k 0x00#8) bytes.length)
    bytes.length

/-- `NEW 100` done: thirteen zero bytes. -/
def vec100 : State := vec (List.replicate 13 0x00#8)

/-- A block halted by the fault of `RDU64` on four bytes. -/
def halted : State := raiseFault .shortRead 4#32 0x42#32 (vec [1#8, 2#8, 3#8, 4#8])

/-- What one step shows that takes the last of `words`: HALT, the vector, the responses. -/
def shows (s : State) (words : List Word) : Option (Bool × List Byte × List Word) :=
  match step (placeCommand words s) with
  | .next t => some (t.halt, (List.range t.length).map t.arr.read, t.respOut)
  | .fault _ => none
  | .refused _ => none

/-- What a command shows, without decoding. -/
def outcome (r : Result) : Option (Bool × List Byte × List Word) :=
  match r with
  | .next t => some (t.halt, (List.range t.length).map t.arr.read, t.respOut)
  | .fault _ => none
  | .refused _ => none

/-- The host offers the one word `w`. -/
def offering (w : Word) (s : State) : State := s.withHostIn [.word w]

/-! ### Which commands can be sent (R65) -/

theorem too_long : maskFits (List.replicate (2 ^ 24) 0#8) = false :=
  decide_eq_false (by rw [List.length_replicate]; exact Nat.lt_irrefl _)
theorem test_wellFormed_refuses_long_and :
    (Instr.and (List.replicate (2 ^ 24) 0#8)).wellFormed = false :=
  too_long
theorem test_wellFormed_refuses_long_or :
    (Instr.or (List.replicate (2 ^ 24) 0#8)).wellFormed = false :=
  too_long
theorem test_wellFormed_refuses_long_xor :
    (Instr.xor (List.replicate (2 ^ 24) 0#8)).wellFormed = false :=
  too_long

/-! ### Words written out bit by bit: ARG in bits 31:8, OP in bits 7:0 (R61, R66) -/

theorem test_decode_new :
    decode [0b00000000000000000000000000000001#32, 0b11111111111111111111111111111110#32] =
      .complete (.new (-2#32)) [] := by decide
theorem test_decode_ldu32 :
    decode [0b00000000000000000000000000000010#32, 0b10000000000000001111111100000000#32] =
      .complete (.ldu32 0x8000FF00#32) [] := by decide
theorem test_decode_ldu64 :
    decode [0b00000000000000000000000000000011#32, 0b10001001101010111100110111101111#32,
      0b00000001001000110100010101100111#32] =
      .complete (.ldu64 0x0123456789ABCDEF#64) [] := by decide
theorem test_decode_set :
    decode [0b10000000000000000000000100010000#32] = .complete (.set 0x800001#24) [] := by decide
theorem test_decode_clr :
    decode [0b00000000000000000000010100010001#32] = .complete (.clr 5#24) [] := by decide
theorem test_decode_flip :
    decode [0b00000000000000000110011100010010#32] = .complete (.flip 103#24) [] := by decide
theorem test_decode_test :
    decode [0b11111111111111111111111100010011#32] = .complete (.test 16777215#24) [] := by decide
theorem test_decode_clrall :
    decode [0b00000000000000000000000000100000#32] = .complete .clrall [] := by decide
theorem test_decode_setall :
    decode [0b00000000000000000000000000100001#32] = .complete .setall [] := by decide
theorem test_decode_not :
    decode [0b00000000000000000000000000100010#32] = .complete .not [] := by decide
theorem test_decode_and :
    decode [0b00000000000000000000010000110000#32, 0b00000100000000110000001000000001#32] =
      .complete (.and [1#8, 2#8, 3#8, 4#8]) [] := by decide
theorem test_decode_or :
    decode [0b00000000000000000000001000110001#32, 0b11111111111111110000000111110000#32] =
      .complete (.or [0xF0#8, 0x01#8]) [] := by decide
theorem test_decode_xor :
    decode [0b00000000000000000000010100110010#32, 0b10101010111111111111111111111111#32,
      0b00000000000000000000000001010101#32] =
      .complete (.xor [0xFF#8, 0xFF#8, 0xFF#8, 0xAA#8, 0x55#8]) [] := by decide
theorem test_decode_rdu32 :
    decode [0b00000000000000000000000001000000#32] = .complete .rdu32 [] := by decide
theorem test_decode_rdu32s :
    decode [0b00000000000000000000000001000001#32] = .complete .rdu32s [] := by decide
theorem test_decode_rdu64 :
    decode [0b00000000000000000000000001000010#32] = .complete .rdu64 [] := by decide
theorem test_decode_rdu64s :
    decode [0b00000000000000000000000001000011#32] = .complete .rdu64s [] := by decide
theorem test_decode_size :
    decode [0b00000000000000000000000001010000#32] = .complete .size [] := by decide

/-- R69 and R70: a reserved OP and a nonzero reserved ARG are illegal alone. -/
theorem test_decode_illegal :
    decode [0x00000104#32] = .illegal .reservedOp 0x00000104#32 ∧
    decode [0x00000121#32] = .illegal .nonzeroArg 0x00000121#32 := by decide

/-! ### One step per command, from 95_test_vectors.md (named by its ids) -/

/-- N2, and N5's CAPACITY (65 bits are 9 bytes), at the least capacity R7 admits. -/
theorem test_new_within_capacity :
    outcome (newWithin 8 1#32 State.reset) = some (false, [0x00#8], [0x00000104#32]) ∧
    outcome (newWithin 8 65#32 (vec [0x07#8])) =
      some (false, [0x07#8], [0x00000165#32, 0x00000041#32]) := by decide
/-- N8. -/
theorem test_new_negative : shows State.reset [0x00000001#32, 0xFFFFFFFF#32] =
    some (false, [], [0x00000151#32, 0xFFFFFFFF#32]) := by decide
/-- N12. -/
theorem test_ldu32 : shows vec100 [0x00000002#32, 0xCAFEF00D#32] =
    some (false, [0x0D#8, 0xF0#8, 0xFE#8, 0xCA#8], [0x00000204#32]) := by decide
/-- N13. -/
theorem test_ldu64 : shows State.reset [0x00000003#32, 0x89ABCDEF#32, 0x01234567#32] =
    some (false, [0xEF#8, 0xCD#8, 0xAB#8, 0x89#8, 0x67#8, 0x45#8, 0x23#8, 0x01#8],
      [0x00000304#32]) := by decide
/-- B7. -/
theorem test_set : shows (vec [0x00#8]) [0x00000710#32] =
    some (false, [0x80#8], [0x00001004#32]) := by decide
/-- B8. -/
theorem test_set_out_of_range : shows (vec [0x80#8]) [0x00000810#32] =
    some (true, [0x80#8], [0x00001036#32, 0x00000008#32]) := by decide
/-- B4. -/
theorem test_clr : shows (vec [0x20#8, 0xFF#8]) [0x00000511#32] =
    some (false, [0x00#8, 0xFF#8], [0x00001104#32]) := by decide
/-- B9's first FLIP. -/
theorem test_flip : shows (vec [0#8, 0#8, 0#8, 0#8]) [0x00001F12#32] =
    some (false, [0#8, 0#8, 0#8, 0x80#8], [0x00001204#32]) := by decide
/-- B2. -/
theorem test_test : shows (vec [0x20#8]) [0x00000513#32] =
    some (false, [0x20#8], [0x00001304#32, 0x00000001#32]) := by decide
/-- B12. -/
theorem test_test_no_instance : shows State.reset [0x00000013#32] =
    some (true, [], [0x00001322#32, 0x00000013#32]) := by decide
/-- K6. -/
theorem test_clrall : shows (vec [0xEF#8, 0xBE#8, 0xAD#8, 0xDE#8]) [0x00000020#32] =
    some (false, [0#8, 0#8, 0#8, 0#8], [0x00002004#32]) := by decide
/-- K1. -/
theorem test_setall : shows (vec [0x00#8, 0x00#8]) [0x00000021#32] =
    some (false, [0xFF#8, 0xFF#8], [0x00002104#32]) := by decide
/-- K8. -/
theorem test_setall_nonzero_arg : shows (vec [0x00#8]) [0x00000121#32] =
    some (true, [0x00#8], [0x00002116#32, 0x00000121#32]) := by decide
/-- K7's first NOT. -/
theorem test_not : shows (vec [0x00#8, 0xFF#8, 0x00#8, 0x00#8]) [0x00000022#32] =
    some (false, [0xFF#8, 0x00#8, 0xFF#8, 0xFF#8], [0x00002204#32]) := by decide
/-- M1. -/
theorem test_and : shows (vec [0xFF#8, 0xFF#8, 0xFF#8]) [0x00000130#32, 0x0000000F#32] =
    some (false, [0x0F#8, 0x00#8, 0x00#8], [0x00003004#32]) := by decide
/-- M12. -/
theorem test_and_no_instance : shows State.reset [0x00000130#32, 0x000000FF#32] =
    some (true, [], [0x00003022#32, 0x00000130#32]) := by decide
/-- M2. -/
theorem test_or : shows (vec [0x0F#8, 0x00#8, 0x00#8]) [0x00000231#32, 0x000001F0#32] =
    some (false, [0xFF#8, 0x01#8, 0x00#8], [0x00003104#32]) := by decide
/-- M6: five mask bytes on a vector of two. -/
theorem test_or_long_mask :
    shows (vec [0x00#8, 0x00#8]) [0x00000531#32, 0x04030201#32, 0x00000005#32] =
      some (false, [0x01#8, 0x02#8], [0x00003104#32]) := by decide
/-- M3. -/
theorem test_xor : shows (vec [0xFF#8, 0x01#8, 0x00#8]) [0x00000432#32, 0xAAFFFFFF#32] =
    some (false, [0x00#8, 0xFE#8, 0xFF#8], [0x00003204#32]) := by decide
/-- R181's example. -/
theorem test_rdu32 :
    shows (vec [0x78#8, 0x56#8, 0x34#8, 0x12#8, 0x99#8]) [0x00000040#32] =
      some (false, [0x78#8, 0x56#8, 0x34#8, 0x12#8, 0x99#8],
        [0x00004004#32, 0x12345678#32]) := by decide
/-- C8. -/
theorem test_rdu32_short : shows (vec [0x00#8, 0xFE#8, 0xFF#8]) [0x00000040#32] =
    some (true, [0x00#8, 0xFE#8, 0xFF#8], [0x00004046#32, 0x00000003#32]) := by decide
/-- S3. -/
theorem test_rdu32s : shows (vec [0x34#8, 0x12#8]) [0x00000041#32] =
    some (false, [0x34#8, 0x12#8], [0x00004104#32, 0x00001234#32]) := by decide
/-- C3. -/
theorem test_rdu64 :
    shows (vec [0xEF#8, 0xCD#8, 0xAB#8, 0x89#8, 0x67#8, 0x45#8, 0x23#8, 0x01#8])
      [0x00000042#32] =
      some (false, [0xEF#8, 0xCD#8, 0xAB#8, 0x89#8, 0x67#8, 0x45#8, 0x23#8, 0x01#8],
        [0x00004204#32, 0x89ABCDEF#32, 0x01234567#32]) := by decide
/-- C6. -/
theorem test_rdu64_short : shows (vec [0x0D#8, 0xF0#8, 0xFE#8, 0xCA#8]) [0x00000042#32] =
    some (true, [0x0D#8, 0xF0#8, 0xFE#8, 0xCA#8], [0x00004246#32, 0x00000004#32]) := by decide
/-- C5. -/
theorem test_rdu64s : shows (vec [0x0D#8, 0xF0#8, 0xFE#8, 0xCA#8]) [0x00000043#32] =
    some (false, [0x0D#8, 0xF0#8, 0xFE#8, 0xCA#8],
      [0x00004304#32, 0xCAFEF00D#32, 0x00000000#32]) := by decide
/-- Z2. -/
theorem test_size : shows (vec [0x00#8, 0x00#8]) [0x00000050#32] =
    some (false, [0x00#8, 0x00#8], [0x00005004#32, 0x00000002#32]) := by decide
/-- F2: the port of a halted block takes no word. -/
theorem test_halted_takes_no_word : step (offering 0x00000001#32 halted) = .fault .halted := rfl
/-- F7: the responses stay, the instance is gone. -/
theorem test_reset_of_halted : outcome (step (halted.withHostIn [.reset])) =
    some (false, [], [0x00004246#32, 0x00000004#32]) := by decide
/-- R72's disassembly and one alias of R73. -/
theorem test_assembler :
    Asm.disassemble (.or [0xF0#8, 0x01#8]) = "OR [0xF0, 0x01]".toList ∧
    Asm.assembleLine "from_u32 0xFF00 ; seed".toList = .ok (some (.ldu32 0xFF00#32)) := by
  decide

/-! ### States that meet the hypotheses of the obligations, one theorem for each

Each applies to boundary values of the ranges the obligation names. An obligation without
a hypothesis has none here. -/

/-- The longest mask that can be sent. -/
def longest : List Byte := List.replicate (2 ^ 24 - 1) 0#8

theorem longest_fits : maskFits longest = true :=
  decide_eq_true (by rw [longest, List.length_replicate]; exact Nat.sub_lt (by decide) (by decide))

theorem witness_DecodeInvertsEncode :
    (Instr.and longest).wellFormed = true ∧ (Instr.or []).wellFormed = true ∧
    (Instr.new 0x80000000#32).wellFormed = true := ⟨longest_fits, rfl, rfl⟩

theorem witness_TruncatedCommandIsIncomplete :
    (Instr.ldu64 0#64).wellFormed = true ∧ 2 < (encode (.ldu64 0#64)).length ∧
    (Instr.size).wellFormed = true ∧ 0 < (encode .size).length := by decide

theorem witness_ReservedOpcodeFaults :
    (∀ op ∈ [0x00, 0x04, 0x0F, 0x14, 0x1F, 0x23, 0x2F, 0x33, 0x3F, 0x44, 0x4F, 0x51, 0xFF],
      opReserved ((BitVec.ofNat 32 op).extractLsb' 0 8)) ∧
    (offering 0x00#32 State.reset).halt = false ∧ (offering 0x00#32 State.reset).rxbuf = [] ∧
    (offering 0x00#32 State.reset).hostIn = .word 0x00#32 :: [] := by
  simp [opReserved, offering, State.reset]

theorem witness_ReservedArgFaults :
    (0x00000101#32).extractLsb' 0 8 ∈ opsWithReservedArg ∧
    (0x00000101#32).extractLsb' 8 24 ≠ 0#24 ∧
    (0xFFFFFF50#32).extractLsb' 0 8 ∈ opsWithReservedArg ∧
    (0xFFFFFF50#32).extractLsb' 8 24 ≠ 0#24 ∧
    (offering 0x00000101#32 halted).rxbuf = [] ∧
    (offering 0x00000101#32 vec100).halt = false ∧ (offering 0x00000101#32 vec100).rxbuf = [] ∧
    (offering 0x00000101#32 vec100).hostIn = .word 0x00000101#32 :: [] ∧
    (0x00000001#32).extractLsb' 8 24 = 0#24 ∧
    (0xFFFFFF10#32).extractLsb' 0 8 ∈ opsWithFreeArg ∧
    (0xFFFFFF32#32).extractLsb' 0 8 ∈ opsWithFreeArg := by decide

theorem witness_FixedFormatOperands :
    (0xFFFFFF10#32).extractLsb' 0 8 = 0x10#8 ∧ (0x00000011#32).extractLsb' 0 8 = 0x11#8 ∧
    (0x00000112#32).extractLsb' 0 8 = 0x12#8 ∧ (0x80000013#32).extractLsb' 0 8 = 0x13#8 := by
  decide

theorem witness_MaskOperandLayout :
    (0x00000530#32).extractLsb' 0 8 = 0x30#8 ∧ (0x00000031#32).extractLsb' 0 8 = 0x31#8 ∧
    (0x00000432#32).extractLsb' 0 8 = 0x32#8 ∧
    [0#32].length < (((0x00000530#32).extractLsb' 8 24).toNat + 3) / 4 ∧
    (((0x00000530#32).extractLsb' 8 24).toNat + 3) / 4 ≤ [0#32, 0xFFFFFFFF#32].length ∧
    (((0x00000031#32).extractLsb' 8 24).toNat + 3) / 4 ≤ ([] : List Word).length ∧
    (((0x00000432#32).extractLsb' 8 24).toNat + 3) / 4 ≤ [0#32].length := by decide

theorem witness_StepRunsDecodedCommand :
    (offering 0x64#32 (State.reset.withRxbuf [0x01#32])).halt = false ∧
    (offering 0x64#32 (State.reset.withRxbuf [0x01#32])).hostIn = .word 0x64#32 :: [] ∧
    decode ((offering 0x64#32 (State.reset.withRxbuf [0x01#32])).rxbuf ++ [0x64#32]) =
      .complete (.new 100#32) [] := by decide

theorem witness_StepHoldsPartialCommand :
    (offering 0x01#32 State.reset).halt = false ∧
    (offering 0x01#32 State.reset).hostIn = .word 0x01#32 :: [] ∧
    decode ((offering 0x01#32 State.reset).rxbuf ++ [0x01#32]) = .incomplete := by decide

/-- Both clauses: no reset to come, and a step that a reset makes. -/
theorem witness_HaltedBlockIsStuck :
    (offering 0x50#32 halted).halt = true ∧ HostEvent.reset ∉ (offering 0x50#32 halted).hostIn ∧
    (halted.withHostIn [.reset]).halt = true ∧
    ∃ t, step (halted.withHostIn [.reset]) = .next t :=
  ⟨rfl, by decide, rfl, _, rfl⟩

theorem witness_NoCommandExecutesWhileHalted : halted.halt = true := rfl

theorem witness_ResetRestoresEveryRegister :
    ((vec100.withRxbuf [0x01#32]).withHostIn [.reset]).hostIn = .reset :: [] ∧
    (halted.withHostIn [.reset, .word 0x50#32]).hostIn = .reset :: [.word 0x50#32] := by decide

theorem witness_ResetLeavesArrayAlone :
    (vec100.withHostIn [.reset]).hostIn = .reset :: [] ∧
    (∃ t, step (vec100.withHostIn [.reset]) = .next t) ∧
    (halted.withHostIn [.reset]).hostIn = .reset :: [] ∧
    ∃ t, step (halted.withHostIn [.reset]) = .next t := ⟨rfl, ⟨_, rfl⟩, rfl, _, rfl⟩

theorem witness_IdleBlockKeepsState :
    (vec100.withRxbuf [0x01#32]).halt = false ∧ (vec100.withRxbuf [0x01#32]).hostIn = [] := by
  decide

theorem witness_WholeCommandRuns :
    (Instr.or [0xF0#8, 0x01#8]).wellFormed = true ∧
    (vec100.withHostIn [.word 0x231#32, .word 0x1F0#32, .reset]).halt = false ∧
    (vec100.withHostIn [.word 0x231#32, .word 0x1F0#32, .reset]).rxbuf = [] ∧
    (vec100.withHostIn [.word 0x231#32, .word 0x1F0#32, .reset]).hostIn =
      (encode (.or [0xF0#8, 0x01#8])).map .word ++ [.reset] := by decide

theorem witness_PlacedCommandRuns :
    vec100.halt = false ∧ decode (tableWords 8 0x03) = .complete (.ldu64 0#64) [] := by decide

theorem witness_NoCommandHangs : State.reset.halt = false := rfl

theorem witness_ResponsesOnlyGrow :
    step (offering 0x50#32 State.reset) =
      .next (raiseFault .noInstance 0x50#32 0x50#32 (State.reset.withRxbuf [0x50#32])) := rfl

/-- Both clauses: a step that halts, and a step of a halted block. -/
theorem witness_OnlyFaultsHaltOnlyResetRevives :
    (∃ t, step (offering 0x00#32 vec100) = .next t ∧ vec100.halt = false ∧ t.halt = true) ∧
    ∃ t, step (halted.withHostIn [.reset]) = .next t ∧ halted.halt = true :=
  ⟨⟨_, rfl, rfl, rfl⟩, _, rfl, rfl⟩

/-- The invariant in a block with an instance, in a halted one and in a waiting one. -/
theorem inv_vec1 : BlockInv (vec [0x01#8]) where
  arr_wf := by decide
  arr_below := by
    intro c hc
    have hcap := Config.eight_le_capBytes
    have hc0 : c.1 = 0 := by revert c; decide
    omega
  len_le := le_trans (by decide : (vec [0x01#8]).length ≤ 8) Config.eight_le_capBytes
  len_zero := by decide
  len_pos := by decide
  cause_zero := by decide
  cause_fault := by decide
  halt_rxbuf := by decide
  rxbuf_partial := by decide

theorem inv_offering : BlockInv (offering 0x40#32 (vec [0x01#8])) :=
  ⟨inv_vec1.arr_wf, inv_vec1.arr_below, inv_vec1.len_le, inv_vec1.len_zero, inv_vec1.len_pos,
    inv_vec1.cause_zero, inv_vec1.cause_fault, inv_vec1.halt_rxbuf, inv_vec1.rxbuf_partial⟩

theorem inv_halted : BlockInv (raiseFault .shortRead 1#32 0x40#32 (vec [0x01#8])) where
  arr_wf := inv_vec1.arr_wf
  arr_below := inv_vec1.arr_below
  len_le := inv_vec1.len_le
  len_zero := by decide
  len_pos := by decide
  cause_zero := by decide
  cause_fault := by decide
  halt_rxbuf := by decide
  rxbuf_partial := by decide

/-- RXBUF as full as it can be: the longest mask, its last data word missing. -/
theorem inv_full : BlockInv
    ((vec [0x01#8]).withRxbuf (0xFFFFFF30#32 :: List.replicate (2 ^ 22 - 1) 0#32)) where
  arr_wf := inv_vec1.arr_wf
  arr_below := inv_vec1.arr_below
  len_le := inv_vec1.len_le
  len_zero := inv_vec1.len_zero
  len_pos := inv_vec1.len_pos
  cause_zero := inv_vec1.cause_zero
  cause_fault := inv_vec1.cause_fault
  halt_rxbuf := fun h => absurd h (by decide)
  rxbuf_partial := by
    rw [State.withRxbuf_rxbuf, decode_of_shape (shape := .m .and) rfl]
    refine decodeShape_m_of_lt ?_
    rw [List.length_replicate]
    decide

theorem witness_EveryStepKeepsInvariant :
    ∃ t, BlockInv (offering 0x40#32 (vec [0x01#8])) ∧
      step (offering 0x40#32 (vec [0x01#8])) = .next t ∧ t.halt = true :=
  ⟨_, inv_offering, rfl, rfl⟩

theorem witness_ReceiveBufferBounded : BlockInv
    ((vec [0x01#8]).withRxbuf (0xFFFFFF30#32 :: List.replicate (2 ^ 22 - 1) 0#32)) := inv_full

/-- Two different states: one has a byte past LEN that the other has not. -/
theorem witness_BytesPastLenUnobservable :
    SameVector (vec [0x01#8]) ((vec [0x01#8]).withArr [(0, 0x01#8), (1, 0xFF#8)]) ∧
    vec [0x01#8] ≠ (vec [0x01#8]).withArr [(0, 0x01#8), (1, 0xFF#8)] :=
  ⟨⟨rfl, by decide⟩, by decide⟩

theorem witness_StatusRegisterFields :
    BlockInv (raiseFault .shortRead 1#32 0x40#32 (vec [0x01#8])) ∧
    BlockInv (vec [0x01#8]) ∧ (vec [0x01#8]).halt = false ∧
    AfterReset (resetBlock halted).hostIn halted (resetBlock halted) :=
  ⟨inv_halted, inv_vec1, rfl, rfl, rfl, rfl, rfl, rfl, rfl, rfl, rfl⟩

theorem witness_EveryCommandEndsOneWay : vec100.halt = false ∧ State.reset.halt = false := by
  decide

theorem witness_CommandsNeedAnInstance :
    isConstructor .size = false ∧ isConstructor (.test 0#24) = false ∧
    State.reset.halt = false ∧ State.reset.valid = false := by decide

theorem witness_OnlyConstructorsWriteLenAndValid :
    (∃ t, exec .size vec100 = .next t ∧ isConstructor .size = false) ∧
    (∃ t, exec (.ldu32 0#32) vec100 = .next t ∧ isConstructor (.ldu32 0#32) = true) ∧
    ∃ t, exec (.new 0#32) vec100 = .next t ∧ isConstructor (.new 0#32) = true :=
  ⟨⟨_, rfl, rfl⟩, ⟨_, rfl, rfl⟩, _, rfl, rfl⟩

theorem witness_OnlyFaultsAndErrorsWriteInfo :
    (∃ t, exec .size vec100 = .next t) ∧ (∃ t, exec (.new 0#32) vec100 = .next t) ∧
    ∃ t, exec (.test 104#24) vec100 = .next t := ⟨⟨_, rfl⟩, ⟨_, rfl⟩, _, rfl⟩

theorem witness_NothingPastLenIsWritten :
    ∃ t, exec .setall (vec [0x01#8]) = .next t ∧ t.length ≤ 1 := ⟨_, rfl, by decide⟩

theorem witness_ReadsHaveNoSideEffects :
    (∃ t, exec .size vec100 = .next t ∧ EndsOk 0x50 [13#32] vec100 t) ∧
    (∃ t, exec (.test 103#24) vec100 = .next t ∧ EndsOk 0x13 [0#32] vec100 t) ∧
    (∃ t, exec .rdu32 vec100 = .next t ∧ EndsOk 0x40 [0#32] vec100 t) ∧
    (∃ t, exec .rdu32s vec100 = .next t ∧ EndsOk 0x41 [0#32] vec100 t) ∧
    (∃ t, exec .rdu64 vec100 = .next t ∧ EndsOk 0x42 [0#32, 0#32] vec100 t) ∧
    ∃ t, exec .rdu64s vec100 = .next t ∧ EndsOk 0x43 [0#32, 0#32] vec100 t :=
  ⟨⟨_, rfl, rfl, rfl, rfl, rfl, rfl, rfl⟩, ⟨_, rfl, rfl, rfl, rfl, rfl, rfl, rfl⟩,
    ⟨_, rfl, rfl, rfl, rfl, rfl, rfl, rfl⟩, ⟨_, rfl, rfl, rfl, rfl, rfl, rfl, rfl⟩,
    ⟨_, rfl, rfl, rfl, rfl, rfl, rfl, rfl⟩, _, rfl, rfl, rfl, rfl, rfl, rfl, rfl⟩

/-- The capacity in bits and one more, as a signed 32-bit count. -/
theorem toInt_ofNat_capBits (k : Nat) (hk : k ≤ 1) :
    (BitVec.ofNat 32 (Config.capBits + k)).toInt = (Config.capBits : Int) + k := by
  have h := Config.capBytes_le
  have e : Config.capBits = 8 * Config.capBytes := rfl
  rw [BitVec.toInt_eq_toNat_of_lt] <;> rw [BitVec.toNat_ofNat, Nat.mod_eq_of_lt] <;> omega

/-- Counts at the bounds of each clause: 0 and the least, `CAP_BITS + 1`, 1 and `CAP_BITS`. -/
theorem witness_NewMakesZeroVector :
    State.reset.halt = false ∧ (0#32).toInt ≤ 0 ∧ (0x80000000#32).toInt ≤ 0 ∧
    (∃ d0 : Word, 0 < d0.toInt ∧ (Config.capBytes : Int) < (d0.toInt + 7) / 8) ∧
    (0 < (1#32).toInt ∧ ((1#32).toInt + 7) / 8 ≤ (Config.capBytes : Int)) ∧
    ∃ d0 : Word, 0 < d0.toInt ∧ (d0.toInt + 7) / 8 = (Config.capBytes : Int) := by
  have h8 := Config.eight_le_capBytes
  have e : Config.capBits = 8 * Config.capBytes := rfl
  have e0 := toInt_ofNat_capBits 0 (by decide)
  have e1 := toInt_ofNat_capBits 1 (by decide)
  refine ⟨rfl, by decide, by decide, ⟨BitVec.ofNat 32 (Config.capBits + 1), ?_, ?_⟩, ⟨by decide, ?_⟩,
    BitVec.ofNat 32 (Config.capBits + 0), ?_, ?_⟩
  all_goals first
    | (rw [show (1#32).toInt = 1 from rfl]; omega)
    | (rw [e1]; omega)
    | (rw [e0]; omega)

theorem witness_Ldu32LoadsSeed : State.reset.halt = false ∧ vec100.halt = false := by decide

theorem witness_Ldu64LoadsSeed : State.reset.halt = false ∧ vec100.halt = false := by decide

/-- The hypotheses of SET, CLR, FLIP and TEST: no instance; the first index past the
vector and the greatest; the last index of the vector and the first. -/
abbrev BitClauses : Prop :=
  State.reset.halt = false ∧ State.reset.valid = false ∧
  vec100.halt = false ∧ vec100.valid = true ∧
  8 * vec100.length ≤ (104#24).toNat ∧ 8 * vec100.length ≤ (0xFFFFFF#24).toNat ∧
  (103#24).toNat < 8 * vec100.length ∧ (0#24).toNat < 8 * vec100.length

theorem witness_SetForcesBitToOne : BitClauses := by decide
theorem witness_ClrForcesBitToZero : BitClauses := by decide
theorem witness_FlipTogglesBit : BitClauses := by decide
theorem witness_TestAnswersBit : BitClauses := by decide

/-- The hypotheses of a command without an operand in `s`: with the command word `w`, its
ARG nonzero, offered, and without. -/
abbrev BareClauses (op : BitVec 8) (w : Word) : Prop :=
  State.reset.halt = false ∧ State.reset.valid = false ∧
  vec100.halt = false ∧ vec100.valid = true ∧
  (offering w vec100).halt = false ∧ w.extractLsb' 0 8 = op ∧ w.extractLsb' 8 24 ≠ 0#24 ∧
  (offering w vec100).rxbuf = [] ∧ (offering w vec100).hostIn = .word w :: []

theorem witness_ClrallClearsVector : BareClauses 0x20#8 0x00000120#32 := by decide
theorem witness_SetallSetsVector : BareClauses 0x21#8 0xFFFFFF21#32 := by decide
theorem witness_NotComplementsVector : BareClauses 0x22#8 0x80000022#32 := by decide

theorem witness_AndCombinesWithMask :
    State.reset.halt = false ∧ State.reset.valid = false ∧
    vec100.halt = false ∧ vec100.valid = true := by decide
theorem witness_OrCombinesWithMask :
    State.reset.halt = false ∧ State.reset.valid = false ∧
    vec100.halt = false ∧ vec100.valid = true := by decide
theorem witness_XorCombinesWithMask :
    State.reset.halt = false ∧ State.reset.valid = false ∧
    vec100.halt = false ∧ vec100.valid = true := by decide

theorem witness_Rdu32ReadsFourBytes :
    BareClauses 0x40#8 0x00000140#32 ∧
    (vec [1#8, 2#8, 3#8]).valid = true ∧ (vec [1#8, 2#8, 3#8]).length < 4 ∧
    (vec [1#8, 2#8, 3#8, 4#8]).valid = true ∧ 4 ≤ (vec [1#8, 2#8, 3#8, 4#8]).length := by decide
theorem witness_Rdu32sZeroFills :
    BareClauses 0x41#8 0x00000141#32 ∧
    ∀ k, (fun j => if j < vec100.length then vec100.arr.read j else 0x00#8) k =
      if k < vec100.length then vec100.arr.read k else 0x00#8 := ⟨by decide, fun _ => rfl⟩
theorem witness_Rdu64ReadsEightBytes :
    BareClauses 0x42#8 0x00000142#32 ∧
    (vec (List.replicate 7 1#8)).valid = true ∧ (vec (List.replicate 7 1#8)).length < 8 ∧
    (vec (List.replicate 8 1#8)).valid = true ∧ 8 ≤ (vec (List.replicate 8 1#8)).length := by
  decide
theorem witness_Rdu64sZeroFills :
    BareClauses 0x43#8 0x00000143#32 ∧
    ∀ k, (fun j => if j < vec100.length then vec100.arr.read j else 0x00#8) k =
      if k < vec100.length then vec100.arr.read k else 0x00#8 := ⟨by decide, fun _ => rfl⟩
theorem witness_SizeAnswersByteLength :
    BareClauses 0x50#8 0x00000150#32 ∧ (vec [0x01#8]).halt = false ∧
    (vec [0x01#8]).valid = true ∧ BlockInv (vec [0x01#8]) := ⟨by decide, rfl, rfl, inv_vec1⟩

theorem witness_ConstructionRoundTrips :
    State.reset.halt = false ∧
    (∃ d0 : Word, 0 < d0.toInt ∧ d0.toInt = (Config.capBits : Int)) ∧
    0 < (9#32).toInt ∧ (9#32).toInt ≤ (Config.capBits : Int) ∧
    ((15#24).toNat : Int) < 8 * (((9#32).toInt + 7) / 8) := by
  have h8 := Config.eight_le_capBytes
  have e : Config.capBits = 8 * Config.capBytes := rfl
  have e0 := toInt_ofNat_capBits 0 (by decide)
  refine ⟨rfl, ⟨BitVec.ofNat 32 (Config.capBits + 0), ?_, ?_⟩, by decide, ?_, by decide⟩
  · rw [e0]; omega
  · rw [e0]; omega
  · rw [show (9#32).toInt = 9 from rfl]; omega

theorem witness_PerBitLaws :
    vec100.halt = false ∧ vec100.valid = true ∧ (103#24).toNat < 8 * vec100.length ∧
    (102#24) ≠ 103#24 ∧ (102#24).toNat < 8 * vec100.length ∧
    (∃ t, exec (.set 103#24) vec100 = .next t) ∧ (∃ t, exec (.clr 103#24) vec100 = .next t) ∧
    ∃ t, exec (.flip 103#24) vec100 = .next t :=
  ⟨rfl, rfl, by decide, by decide, by decide, ⟨_, rfl⟩, ⟨_, rfl⟩, _, rfl⟩

theorem witness_BulkLaws :
    vec100.halt = false ∧ vec100.valid = true ∧ (103#24).toNat < 8 * vec100.length := by decide

theorem witness_MaskLaws :
    (vec [1#8, 2#8]).halt = false ∧ (vec [1#8, 2#8]).valid = true ∧
    [0xFF#8, 0x0F#8].length = (vec [1#8, 2#8]).length ∧ 1 < (vec [1#8, 2#8]).length ∧
    15 < 8 * (vec [1#8, 2#8]).length := by decide

theorem witness_ExtraMaskBytesUnused :
    (vec [1#8, 2#8]).length ≤ [0xFF#8, 0x0F#8].length ∧
    (vec [1#8, 2#8]).length ≤ [0xFF#8, 0x0F#8, 0x01#8].length ∧
    (∃ t, exec (.and [0xFF#8, 0x0F#8, 0x01#8]) (vec [1#8, 2#8]) = .next t) ∧
    (∃ t, exec (.or [0xFF#8, 0x0F#8, 0x01#8]) (vec [1#8, 2#8]) = .next t) ∧
    ∃ t, exec (.xor [0xFF#8, 0x0F#8]) (vec [1#8, 2#8]) = .next t :=
  ⟨by decide, by decide, ⟨_, rfl⟩, ⟨_, rfl⟩, _, rfl⟩

theorem witness_ConversionLaws :
    (vec [1#8, 2#8, 3#8, 4#8]).halt = false ∧ (vec [1#8, 2#8, 3#8, 4#8]).valid = true ∧
    4 ≤ (vec [1#8, 2#8, 3#8, 4#8]).length ∧ 8 ≤ vec100.length ∧
    (vec [0x34#8, 0x12#8]).valid = true ∧ (vec [0x34#8, 0x12#8]).length = 2 ∧
    (vec [0x34#8, 0x12#8]).arr.read 0 = 0x34#8 ∧ (vec [0x34#8, 0x12#8]).arr.read 1 = 0x12#8 ∧
    (15#24).toNat < min 32 (8 * (vec [0x34#8, 0x12#8]).length) ∧
    min 32 (8 * (vec [0x34#8, 0x12#8]).length) ≤ 16 := by decide

theorem witness_BitViewIsIntegerView :
    103 < 8 * vec100.length ∧ State.reset.halt = false ∧ (31#24).toNat < 32 ∧
    (vec [1#8, 2#8, 3#8, 4#8]).halt = false ∧ (vec [1#8, 2#8, 3#8, 4#8]).valid = true ∧
    4 ≤ (vec [1#8, 2#8, 3#8, 4#8]).length := by decide

theorem witness_AssembleInvertsDisassemble :
    (Instr.xor longest).wellFormed = true ∧ (Instr.new 0x80000000#32).wellFormed = true :=
  ⟨longest_fits, rfl⟩

end Sys2Proof.Tests
end

namespace Sys2Proof.Machine

/-! ## Proofs about the state (10_state.md)

The statements about LEN, VALID, INFO, HALT and the bytes past LEN. Each rests on
`exec_next_effect` or `step_next_cases`, which say once what a command and a step can do. -/

/-! ### Facts about the shared operations -/

@[simp] theorem length_respond (w : Word) (payload : List Word) (s : State) :
    (respond w payload s).length = s.length := rfl

/-- A constructor within the capacity leaves the LEN it was given (R101 to R103). -/
theorem length_withInstance (s : State) (m : Memory) {nb : Nat} (h : nb ≤ Config.capBytes) :
    (s.withInstance m nb).length = nb := toNat_length_of_le h

/-- The emitted causes are 1 to 6 (R221). -/
theorem Cause.code_bounds (c : Cause) : 1 ≤ c.code.toNat ∧ c.code.toNat ≤ 6 := by
  cases c <;> decide

/-- What a reset makes of a block with `es` still to come from the host (R260, R261). -/
theorem afterReset_resetBlock (s : State) (es : List HostEvent) :
    AfterReset es s (resetBlock (s.withHostIn es)) := by
  simp [AfterReset]

/-! ### LEN, VALID, INFO and the bytes past LEN -/

/-- Settles O30, by what a command can do: `constructed` alone writes LEN or VALID, and it
sets VALID. -/
theorem onlyConstructorsWriteLenAndValid : Obligations.OnlyConstructorsWriteLenAndValid := by
  intro i s t h
  obtain ⟨-, effect⟩ := exec_next_effect h
  cases effect with
  | faulted | rejected | answered | wroteByte | wroteAll => simp
  | constructed _ _ hi => simp [hi]

/-- Settles O31, by what a command can do: `respond` keeps INFO, and `raiseFault` and
`rejectError` send the INFO they record. -/
theorem onlyFaultsAndErrorsWriteInfo : Obligations.OnlyFaultsAndErrorsWriteInfo := by
  intro i s t h
  obtain ⟨hrun, effect⟩ := exec_next_effect h
  cases effect with
  | faulted c info =>
    exact .inr ⟨2, c.code.toNat, .inr rfl, c.code_bounds.1, c.code_bounds.2,
      by simp [responseWord_fault]⟩
  | rejected c info =>
    exact .inr ⟨1, c.code.toNat, .inl rfl, c.code_bounds.1, c.code_bounds.2,
      by simp [responseWord_error]⟩
  | answered payload => exact .inl ⟨rfl, hrun, payload, by simp [responseWord_ok]⟩
  | wroteByte | wroteAll | constructed =>
    exact .inl ⟨rfl, hrun, [], by simp [responseWord_ok]⟩

/-- Settles O32, by what a command can do: every write stays below the LEN that the command
leaves. -/
theorem nothingPastLenIsWritten : Obligations.NothingPastLenIsWritten := by
  intro i s t h a ha
  obtain ⟨-, effect⟩ := exec_next_effect h
  cases effect with
  | faulted | rejected | answered => rfl
  | wroteByte k v _ _ hk =>
    have hne : a ≠ k := (lt_of_lt_of_le hk ha).ne'
    exact Memory.read_write_ne _ v hne
  | wroteAll f =>
    have hge : ¬ a < s.length := Nat.not_lt.mpr ha
    simp [Memory.read_writeAll, hge]
  | constructed f nb _ _ hcap =>
    rw [length_respond, length_withInstance _ _ hcap] at ha
    simp [Memory.read_writeAll, Nat.not_lt.mpr ha]

/-! ### HALT -/

/-- A command that halts the block is a fault (R27, R224). -/
theorem ExecEffect.eq_raiseFault_of_halt {i : Instr} {s t : State} (effect : ExecEffect i s t)
    (hs : s.halt = false) (ht : t.halt = true) :
    ∃ c info, c.code.toNat ≤ 4 ∧ t = raiseFault c info i.commandWord s := by
  cases effect with
  | faulted c info _ hc => exact ⟨c, info, hc.2, rfl⟩
  | rejected | answered | wroteByte | wroteAll | constructed => simp [hs] at ht

/-- A step that halts the block is a fault with cause 1 to 4, raised with nothing changed but
the words taken from the host (R27, R28, R224). -/
theorem step_eq_raiseFault_of_halt {s t : State} (h : step s = .next t) (hs : s.halt = false)
    (ht : t.halt = true) :
    ∃ c info w rest ws, c.code.toNat ≤ 4 ∧
      t = raiseFault c info w ((s.withHostIn rest).withRxbuf ws) := by
  rcases step_next_cases h with ⟨hhalt, _⟩ | ⟨_, _, rfl⟩ | ⟨rest, _, _, rfl⟩ |
    ⟨w, rest, why, c, _, _, _, rfl⟩ | ⟨w, rest, _, _, _, rfl⟩ | ⟨w, rest, i, more, _, _, _, hexec⟩
  · simp [hs] at hhalt
  · simp [hs] at ht
  · simp at ht
  · exact ⟨.illegalCmd, c, c, rest, s.rxbuf, by decide, rfl⟩
  · simp [hs] at ht
  · obtain ⟨c, info, hc, rfl⟩ := (exec_next_effect hexec).2.eq_raiseFault_of_halt hs ht
    exact ⟨c, info, _, rest, _, hc, rfl⟩

/-- The step of a halted block is the reset the host was to assert (R227, R228). -/
theorem step_eq_resetBlock_of_halted {s t : State} (h : step s = .next t) (hs : s.halt = true) :
    HostEvent.reset ∈ s.hostIn ∧ t = resetBlock (s.withHostIn (s.hostIn.erase .reset)) := by
  by_cases hr : HostEvent.reset ∈ s.hostIn
  · rw [step, fetch_halted_reset hs hr] at h
    exact ⟨hr, next_eq_next.mp h⟩
  · rw [step, fetch_halted hs hr] at h
    cases h

/-- Settles O20: HALT rises by `raiseFault` alone and falls by `resetBlock` alone. -/
theorem onlyFaultsHaltOnlyResetRevives : Obligations.OnlyFaultsHaltOnlyResetRevives := by
  intro s t h
  constructor
  · intro hs ht
    obtain ⟨c, info, w, rest, ws, hc, rfl⟩ := step_eq_raiseFault_of_halt h hs ht
    exact ⟨c.code.toNat, (opField w).toNat, c.code_bounds.1, hc, by simp, rfl, rfl, rfl, rfl,
      by simp [responseWord_fault]⟩
  · intro hs
    obtain ⟨hr, rfl⟩ := step_eq_resetBlock_of_halted h hs
    exact ⟨rfl, hr, afterReset_resetBlock s _⟩

/-! ### The invariant

`BlockInv` is a part about ARR, LEN and VALID, which the commands keep, and a part about
HALT, CAUSE and RXBUF, which is settled by how a step ends. -/

/-- The clauses of `BlockInv` about ARR, LEN and VALID. -/
structure VectorInv (s : State) : Prop where
  /-- ARR is in canonical form. -/
  arr_wf : s.arr.wf
  /-- Only bytes `ARR[0]` to `ARR[CAP_BYTES-1]` exist (R21). -/
  arr_below : ∀ c ∈ s.arr, c.1 < Config.capBytes
  /-- `LEN <= CAP_BYTES` (R22). -/
  len_le : s.length ≤ Config.capBytes
  /-- With VALID 0, LEN is 0 (R37). -/
  len_zero : s.valid = false → s.length = 0
  /-- With VALID 1, LEN is not 0 (R200). -/
  len_pos : s.valid = true → 0 < s.length

theorem BlockInv.vector {s : State} (h : BlockInv s) : VectorInv s :=
  ⟨h.arr_wf, h.arr_below, h.len_le, h.len_zero, h.len_pos⟩

/-- The invariant of a running block. -/
theorem VectorInv.blockInv_of_running {s : State} (h : VectorInv s) (hhalt : s.halt = false)
    (hcause : s.cause = 0#4) (hrx : decode s.rxbuf = .incomplete) : BlockInv s where
  arr_wf := h.arr_wf
  arr_below := h.arr_below
  len_le := h.len_le
  len_zero := h.len_zero
  len_pos := h.len_pos
  cause_zero _ := hcause
  cause_fault ht := by simp [hhalt] at ht
  halt_rxbuf ht := by simp [hhalt] at ht
  rxbuf_partial := hrx

/-- A fault with one of the fault codes leaves the invariant (R224). -/
theorem VectorInv.blockInv_raiseFault {s : State} (h : VectorInv s) {c : Cause}
    (hc : c.code.toNat ≤ 4) (info w : Word) : BlockInv (raiseFault c info w s) where
  arr_wf := h.arr_wf
  arr_below := h.arr_below
  len_le := h.len_le
  len_zero := h.len_zero
  len_pos := h.len_pos
  cause_zero ht := by simp at ht
  cause_fault _ := ⟨c.code_bounds.1, hc⟩
  halt_rxbuf _ := rfl
  rxbuf_partial := rfl

/-- Neither the host's events nor the words received are part of the vector. -/
theorem VectorInv.withRxbuf_withHostIn {s : State} (h : VectorInv s) (es : List HostEvent)
    (ws : List Word) : VectorInv ((s.withHostIn es).withRxbuf ws) :=
  ⟨h.arr_wf, h.arr_below, h.len_le, h.len_zero, h.len_pos⟩

/-- Writing a byte of the vector keeps it a vector. -/
theorem VectorInv.withArr_write {s : State} (h : VectorInv s) {k : Nat} (hk : k < s.length)
    (v : Byte) : VectorInv (s.withArr (s.arr.write k v)) where
  arr_wf := Memory.wf_write h.arr_wf k v
  arr_below c hc := by
    rcases Memory.mem_write hc with rfl | hc
    · exact lt_of_lt_of_le hk h.len_le
    · exact h.arr_below c hc
  len_le := h.len_le
  len_zero := h.len_zero
  len_pos := h.len_pos

/-- Writing bytes below the capacity lists no byte past it. -/
theorem VectorInv.arr_below_writeAll {s : State} (h : VectorInv s) {n : Nat}
    (hn : n ≤ Config.capBytes) (f : Nat → Byte) :
    ∀ c ∈ s.arr.writeAll f n, c.1 < Config.capBytes := by
  intro c hc
  rcases Memory.mem_writeAll hc with hlt | hc
  · exact lt_of_lt_of_le hlt hn
  · exact h.arr_below c hc

/-- Writing every byte of the vector keeps it a vector. -/
theorem VectorInv.withArr_writeAll {s : State} (h : VectorInv s) (f : Nat → Byte) :
    VectorInv (s.withArr (s.arr.writeAll f s.length)) where
  arr_wf := Memory.wf_writeAll h.arr_wf f _
  arr_below := h.arr_below_writeAll h.len_le f
  len_le := h.len_le
  len_zero := h.len_zero
  len_pos := h.len_pos

/-- What a constructor makes within the capacity is a vector (R100). -/
theorem VectorInv.withInstance_writeAll {s : State} (h : VectorInv s) (f : Nat → Byte) {nb : Nat}
    (hpos : 0 < nb) (hcap : nb ≤ Config.capBytes) :
    VectorInv (s.withInstance (s.arr.writeAll f nb) nb) where
  arr_wf := Memory.wf_writeAll h.arr_wf f nb
  arr_below := h.arr_below_writeAll hcap f
  len_le := by rwa [length_withInstance _ _ hcap]
  len_zero hv := by simp at hv
  len_pos _ := by rwa [length_withInstance _ _ hcap]

/-- An OK end of a running block's command leaves the invariant. -/
theorem VectorInv.blockInv_respond {s : State} (h : VectorInv s) (hhalt : s.halt = false)
    (hcause : s.cause = 0#4) (w : Word) (payload : List Word) : BlockInv (respond w payload s) :=
  VectorInv.blockInv_of_running ⟨h.arr_wf, h.arr_below, h.len_le, h.len_zero, h.len_pos⟩
    hhalt hcause rfl

/-- Every command leaves the invariant, whatever words it came by. -/
theorem VectorInv.blockInv_of_effect {i : Instr} {s t : State} (h : VectorInv s)
    (hhalt : s.halt = false) (hcause : s.cause = 0#4) (effect : ExecEffect i s t) :
    BlockInv t := by
  cases effect with
  | faulted c info _ hc => exact h.blockInv_raiseFault hc.2 _ _
  | rejected c info =>
    exact VectorInv.blockInv_of_running ⟨h.arr_wf, h.arr_below, h.len_le, h.len_zero, h.len_pos⟩
      hhalt hcause rfl
  | answered payload => exact h.blockInv_respond hhalt hcause _ _
  | wroteByte k v _ _ hk => exact (h.withArr_write hk v).blockInv_respond hhalt hcause _ _
  | wroteAll f => exact (h.withArr_writeAll f).blockInv_respond hhalt hcause _ _
  | constructed f nb _ hpos hcap =>
    exact (h.withInstance_writeAll f hpos hcap).blockInv_respond hhalt hcause _ _

/-- A reset leaves the invariant: ARR is kept and LEN is 0 (R260). -/
theorem VectorInv.blockInv_resetBlock {s : State} (h : VectorInv s) (es : List HostEvent) :
    BlockInv (resetBlock (s.withHostIn es)) :=
  VectorInv.blockInv_of_running
    ⟨h.arr_wf, h.arr_below, Nat.zero_le _, fun _ => rfl, fun hv => by simp at hv⟩ rfl rfl rfl

/-- Settles O21, by what a step can do: each of its ends leaves the invariant. -/
theorem everyStepKeepsInvariant : Obligations.EveryStepKeepsInvariant := by
  intro s t inv h
  have vec := inv.vector
  rcases step_next_cases h with ⟨_, _, rfl⟩ | ⟨_, _, rfl⟩ | ⟨rest, _, _, rfl⟩ |
    ⟨w, rest, why, c, _, _, _, rfl⟩ | ⟨w, rest, hs, _, hdec, rfl⟩ |
    ⟨w, rest, i, more, hs, _, _, hexec⟩
  · exact vec.blockInv_resetBlock _
  · exact inv
  · exact vec.blockInv_resetBlock _
  · exact (vec.withRxbuf_withHostIn rest s.rxbuf).blockInv_raiseFault (by decide) c c
  · exact (vec.withRxbuf_withHostIn rest _).blockInv_of_running hs (inv.cause_zero hs) hdec
  · exact (vec.withRxbuf_withHostIn rest _).blockInv_of_effect hs (inv.cause_zero hs)
      (exec_next_effect hexec).2

/-- Settles O22: after reset ARR lists no byte, LEN is 0 and the block runs (R36). -/
theorem invariantHoldsAtReset : Obligations.InvariantHoldsAtReset :=
  VectorInv.blockInv_of_running
    ⟨Memory.wf_nil, fun _ hc => (List.not_mem_nil hc).elim, Nat.zero_le _, fun _ => rfl,
      fun hv => by simp [State.reset] at hv⟩ rfl rfl rfl

/-! ### RXBUF -/

/-- Data words can be missing only while there are fewer of them than the command has: two in
format D64, `ceil(mlen/4)` in format M (R64, R65). -/
theorem length_lt_of_decodeShape_incomplete {shape : Shape} {w : Word} {data : List Word}
    (h : decodeShape shape w data = .incomplete) :
    data.length < max 2 (maskWords (argField w).toNat) := by
  cases shape with
  | n i =>
    rw [decodeShape] at h
    split at h <;> cases h
  | i f => cases h
  | d32 f =>
    rcases data with _ | ⟨d0, rest⟩
    · simp
    · rw [decodeShape] at h
      split at h <;> cases h
  | d64 f =>
    rcases data with _ | ⟨d0, _ | ⟨d1, rest⟩⟩
    · simp
    · simp
    · rw [decodeShape] at h
      split at h <;> cases h
  | m f =>
    rw [lt_max_iff]
    by_contra hge
    rw [decodeShape_m_of_le (by omega)] at h
    cases h

/-- The words of an incomplete command are at most those of the longest mask command (R30). -/
theorem length_le_of_decode_incomplete {words : List Word} (h : decode words = .incomplete) :
    words.length ≤ 1 + (2 ^ 24 - 1 + 3) / 4 := by
  cases words with
  | nil => exact Nat.zero_le _
  | cons w data =>
    cases hs : shapeOf (opField w) with
    | none =>
      rw [decode_of_reserved hs] at h
      cases h
    | some shape =>
      rw [decode_of_shape hs] at h
      have hlt := length_lt_of_decodeShape_incomplete h
      have harg := (argField w).isLt
      rw [maskWords] at hlt
      rw [List.length_cons]
      omega

/-- Settles O23: RXBUF holds an incomplete command. -/
theorem receiveBufferBounded : Obligations.ReceiveBufferBounded :=
  fun _ inv => length_le_of_decode_incomplete inv.rxbuf_partial

/-! ### STATUS -/

/-- STATUS is `VALID + 2*HALT + 16*CAUSE` (R25). -/
theorem toNat_status (s : State) :
    s.status.toNat = s.valid.toNat + 2 * s.halt.toNat + 16 * s.cause.toNat := by
  simp only [State.status, toNat_append_eq, BitVec.toNat_ofBool, BitVec.toNat_ofNat]
  omega

/-- Bits 3:2 of STATUS are hardwired zeros (R25). -/
theorem extractLsb'_status (s : State) : s.status.extractLsb' 2 2 = 0#2 := by
  apply BitVec.eq_of_toNat_eq
  have hv := s.valid.toNat_lt
  have hh := s.halt.toNat_lt
  rw [BitVec.extractLsb'_toNat, toNat_status, Nat.shiftRight_eq_div_pow, BitVec.toNat_ofNat]
  omega

/-- CAUSE is one of its legal values (R25, R28). -/
theorem BlockInv.cause_le {s : State} (inv : BlockInv s) : s.cause.toNat ≤ 4 := by
  cases hs : s.halt with
  | false => simp [inv.cause_zero hs]
  | true => exact (inv.cause_fault hs).2

/-- Settles O25, from R25's layout, the clauses of the invariant about CAUSE, and the fields a
reset clears. -/
theorem statusRegisterFields : Obligations.StatusRegisterFields := by
  intro s
  refine ⟨toNat_status s, extractLsb'_status s, fun inv => ⟨inv.cause_le, inv.cause_zero⟩, ?_⟩
  rintro t ⟨-, hvalid, hhalt, hcause, -⟩
  rw [State.status, hvalid, hhalt, hcause]
  rfl

/-! ### Bytes past LEN cannot be seen (R23)

`SameVector` is kept by every operation; so the checks answer alike, so the commands do, and
so does every step. -/

theorem SameVector.length_eq {s t : State} (h : SameVector s t) : s.length = t.length :=
  (congrArg State.length h.1 :)
theorem SameVector.valid_eq {s t : State} (h : SameVector s t) : s.valid = t.valid :=
  (congrArg State.valid h.1 :)
theorem SameVector.halt_eq {s t : State} (h : SameVector s t) : s.halt = t.halt :=
  (congrArg State.halt h.1 :)
theorem SameVector.rxbuf_eq {s t : State} (h : SameVector s t) : s.rxbuf = t.rxbuf :=
  (congrArg State.rxbuf h.1 :)
theorem SameVector.hostIn_eq {s t : State} (h : SameVector s t) : s.hostIn = t.hostIn :=
  (congrArg State.hostIn h.1 :)
theorem SameVector.lenWord_eq {s t : State} (h : SameVector s t) : s.lenWord = t.lenWord :=
  (congrArg State.lenWord h.1 :)

/-- The bytes of the vector read alike. -/
theorem SameVector.read_eq {s t : State} (h : SameVector s t) {k : Nat} (hk : k < s.length) :
    s.arr.read k = t.arr.read k := h.2 k hk

/-- The integer view of bytes of the vector is the same (R40). -/
theorem SameVector.memRead_eq {s t : State} (h : SameVector s t) {n : Nat} (hn : n ≤ s.length) :
    s.arr.memRead n = t.arr.memRead n :=
  Memory.memRead_congr fun _ hk => h.read_eq (lt_of_lt_of_le hk hn)

theorem SameVector.withHostIn_congr {s t : State} (h : SameVector s t) (es : List HostEvent) :
    SameVector (s.withHostIn es) (t.withHostIn es) :=
  ⟨congrArg (fun u => u.withHostIn es) h.1, h.2⟩

theorem SameVector.withRxbuf_congr {s t : State} (h : SameVector s t) (ws : List Word) :
    SameVector (s.withRxbuf ws) (t.withRxbuf ws) :=
  ⟨congrArg (fun u => u.withRxbuf ws) h.1, h.2⟩

theorem SameVector.respond_congr {s t : State} (h : SameVector s t) (w : Word)
    (payload : List Word) : SameVector (respond w payload s) (respond w payload t) :=
  ⟨congrArg (respond w payload) h.1, h.2⟩

theorem SameVector.raiseFault_congr {s t : State} (h : SameVector s t) (c : Cause)
    (info w : Word) : SameVector (raiseFault c info w s) (raiseFault c info w t) :=
  ⟨congrArg (raiseFault c info w) h.1, h.2⟩

theorem SameVector.rejectError_congr {s t : State} (h : SameVector s t) (c : Cause)
    (info w : Word) : SameVector (rejectError c info w s) (rejectError c info w t) :=
  ⟨congrArg (rejectError c info w) h.1, h.2⟩

/-- After a reset LEN is 0, so ARR may be anything. -/
theorem SameVector.resetBlock_congr {s t : State} (h : SameVector s t) :
    SameVector (resetBlock s) (resetBlock t) :=
  ⟨congrArg resetBlock h.1, fun _ hk => absurd hk (Nat.not_lt_zero _)⟩

/-- Arrays that read alike below LEN may take ARR's place. -/
theorem SameVector.withArr_congr {s t : State} (h : SameVector s t) {m m' : Memory}
    (hm : ∀ k, k < s.length → m.read k = m'.read k) :
    SameVector (s.withArr m) (t.withArr m') :=
  ⟨h.1, hm⟩

/-- A constructor overwrites every byte below the LEN it sets (R100). -/
theorem SameVector.withInstance_congr {s t : State} (h : SameVector s t) (f : Nat → Byte)
    (nb : Nat) :
    SameVector (s.withInstance (s.arr.writeAll f nb) nb)
      (t.withInstance (t.arr.writeAll f nb) nb) := by
  refine ⟨congrArg (fun u => u.withInstance [] nb) h.1, fun k hk => ?_⟩
  have hlt : k < nb :=
    lt_of_lt_of_le hk ((BitVec.toNat_ofNat nb 22).trans_le (Nat.mod_le _ _))
  simp [Memory.read_writeAll, hlt]

/-- Two tests that agree choose answers that are the same. -/
theorem sameAnswer_ite {p q : Prop} [Decidable p] [Decidable q] {a a' b b' : Result}
    (hpq : p ↔ q) (hpos : p → SameAnswer a a') (hneg : ¬ p → SameAnswer b b') :
    SameAnswer (if p then a else b) (if q then a' else b') := by
  by_cases hp : p
  · rw [if_pos hp, if_pos (hpq.mp hp)]
    exact hpos hp
  · rw [if_neg hp, if_neg (mt hpq.mpr hp)]
    exact hneg hp

section Checks

variable {s t : State} {a b : Result}

theorem SameVector.whileRunning_congr (h : SameVector s t) (hab : SameAnswer a b) :
    SameAnswer (whileRunning s a) (whileRunning t b) :=
  sameAnswer_ite (by rw [h.halt_eq]) (fun _ => rfl) fun _ => hab

theorem SameVector.withInstanceOf_congr (h : SameVector s t) (w : Word) (hab : SameAnswer a b) :
    SameAnswer (withInstanceOf w s a) (withInstanceOf w t b) :=
  h.whileRunning_congr
    (sameAnswer_ite (by rw [h.valid_eq]) (fun _ => hab) fun _ => h.raiseFault_congr _ _ _)

theorem SameVector.withBitIndex_congr (h : SameVector s t) (w : Word) (i : BitVec 24)
    (hab : i.toNat < 8 * s.length → SameAnswer a b) :
    SameAnswer (withBitIndex w i s a) (withBitIndex w i t b) :=
  h.withInstanceOf_congr w
    (sameAnswer_ite (by rw [h.length_eq]) hab fun _ => h.raiseFault_congr _ _ _)

theorem SameVector.withBytes_congr (h : SameVector s t) (n : Nat) (w : Word)
    (hab : n ≤ s.length → SameAnswer a b) :
    SameAnswer (withBytes n w s a) (withBytes n w t b) := by
  refine h.withInstanceOf_congr w (sameAnswer_ite (by rw [h.length_eq]) (fun _ => ?_)
    fun hn => hab (Nat.not_lt.mp hn))
  rw [h.lenWord_eq]
  exact h.raiseFault_congr _ _ _

end Checks

/-- A bit index of the vector names a byte of the vector (R120). -/
theorem byteIndex_lt {i : BitVec 24} {n : Nat} (h : i.toNat < 8 * n) : byteIndex i < n :=
  Nat.div_lt_of_lt_mul h

theorem SameVector.updateBit_congr {s t : State} (h : SameVector s t) (w : Word) (i : BitVec 24)
    (f : Byte → Byte) : SameAnswer (updateBit w i f s) (updateBit w i f t) := by
  refine h.withBitIndex_congr w i fun hi => (h.withArr_congr fun k hk => ?_).respond_congr w []
  rw [Memory.read_write, Memory.read_write, h.read_eq hk, h.read_eq (byteIndex_lt hi)]

theorem SameVector.updateAll_congr {s t : State} (h : SameVector s t) (w : Word)
    (f : Nat → Byte → Byte) : SameAnswer (updateAll w f s) (updateAll w f t) := by
  refine h.withInstanceOf_congr w ((h.withArr_congr fun k hk => ?_).respond_congr w [])
  simp only [Memory.read_writeAll, hk, ← h.length_eq, if_true, h.read_eq hk]

theorem SameVector.newWithin_congr {s t : State} (h : SameVector s t) (cap : Nat) (d0 : Word) :
    SameAnswer (newWithin cap d0 s) (newWithin cap d0 t) :=
  h.whileRunning_congr
    (sameAnswer_ite Iff.rfl (fun _ => h.rejectError_congr _ _ _) fun _ =>
      sameAnswer_ite Iff.rfl (fun _ => h.rejectError_congr _ _ _) fun _ =>
        (h.withInstance_congr _ _).respond_congr _ _)

/-- LDU32 and LDU64 alike: a seed of `n` bytes. -/
theorem SameVector.seed_congr {s t : State} (h : SameVector s t) (w : Word) (n v : Nat) :
    SameAnswer
      (whileRunning s (.next (respond w [] (s.withInstance (s.arr.memWrite n v) n))))
      (whileRunning t (.next (respond w [] (t.withInstance (t.arr.memWrite n v) n)))) :=
  h.whileRunning_congr ((h.withInstance_congr _ n).respond_congr w [])

/-- An answer computed from the vector alone. -/
theorem SameVector.respond_of_eq {s t : State} (h : SameVector s t) (w : Word)
    {payload payload' : List Word} (hp : payload = payload') :
    SameAnswer (.next (respond w payload s)) (.next (respond w payload' t)) :=
  hp ▸ h.respond_congr w payload

/-- No command tells two blocks with the same vector apart. -/
theorem SameVector.exec_congr {s t : State} (h : SameVector s t) (i : Instr) :
    SameAnswer (exec i s) (exec i t) := by
  cases i with
  | new d0 => exact h.newWithin_congr _ d0
  | ldu32 seed => exact h.seed_congr _ 4 seed.toNat
  | ldu64 seed => exact h.seed_congr _ 8 seed.toNat
  | set k =>
    rw [exec_set, exec_set]
    exact h.updateBit_congr _ k _
  | clr k =>
    rw [exec_clr, exec_clr]
    exact h.updateBit_congr _ k _
  | flip k =>
    rw [exec_flip, exec_flip]
    exact h.updateBit_congr _ k _
  | test k =>
    exact h.withBitIndex_congr _ k fun hk =>
      h.respond_of_eq _ (by rw [h.read_eq (byteIndex_lt hk)])
  | clrall =>
    rw [exec_clrall, exec_clrall]
    exact h.updateAll_congr _ _
  | setall =>
    rw [exec_setall, exec_setall]
    exact h.updateAll_congr _ _
  | not =>
    rw [exec_not, exec_not]
    exact h.updateAll_congr _ _
  | and mask =>
    rw [exec_and, exec_and]
    exact h.updateAll_congr _ _
  | or mask =>
    rw [exec_or, exec_or]
    exact h.updateAll_congr _ _
  | xor mask =>
    rw [exec_xor, exec_xor]
    exact h.updateAll_congr _ _
  | rdu32 =>
    exact h.withBytes_congr 4 _ fun hn => h.respond_of_eq _ (by rw [h.memRead_eq hn])
  | rdu32s =>
    exact h.withInstanceOf_congr _
      (h.respond_of_eq _ (by rw [h.memRead_eq (min_le_left _ _), h.length_eq]))
  | rdu64 =>
    exact h.withBytes_congr 8 _ fun hn => h.respond_of_eq _ (by rw [h.memRead_eq hn])
  | rdu64s =>
    exact h.withInstanceOf_congr _
      (h.respond_of_eq _ (by rw [h.memRead_eq (min_le_left _ _), h.length_eq]))
  | size => exact h.withInstanceOf_congr _ (h.respond_of_eq _ (by rw [h.lenWord_eq]))

/-- What a step answers to what the block finds at its ports. -/
def Fetched.answer : Fetched → Result
  | .took t => .next t
  | .run i t => exec i t
  | .stuck => .fault .halted

/-- A step answers what the block finds at its ports. -/
theorem step_eq_answer (s : State) : step s = (fetch s).answer := by
  rw [step]
  cases fetch s <;> rfl

theorem SameVector.receive_congr {s t : State} (h : SameVector s t) (w : Word) :
    SameAnswer (receive w s).answer (receive w t).answer := by
  rw [receive, receive, ← h.rxbuf_eq]
  cases decode (s.rxbuf ++ [w]) with
  | illegal _ c => exact h.raiseFault_congr .illegalCmd c c
  | incomplete => exact h.withRxbuf_congr _
  | complete i _ => exact (h.withRxbuf_congr _).exec_congr i

/-- No step tells two blocks with the same vector apart. -/
theorem SameVector.step_congr {s t : State} (h : SameVector s t) :
    SameAnswer (step s) (step t) := by
  rw [step_eq_answer, step_eq_answer]
  cases hs : s.halt with
  | true =>
    have ht : t.halt = true := h.halt_eq ▸ hs
    by_cases hr : HostEvent.reset ∈ s.hostIn
    · rw [fetch_halted_reset hs hr, fetch_halted_reset ht (h.hostIn_eq ▸ hr), ← h.hostIn_eq]
      exact (h.withHostIn_congr _).resetBlock_congr
    · rw [fetch_halted hs hr, fetch_halted ht (h.hostIn_eq ▸ hr)]
      rfl
  | false =>
    have ht : t.halt = false := h.halt_eq ▸ hs
    cases he : s.hostIn with
    | nil =>
      rw [fetch_idle hs he, fetch_idle ht (h.hostIn_eq ▸ he)]
      exact h
    | cons e rest =>
      cases e with
      | reset =>
        rw [fetch_reset hs he, fetch_reset ht (h.hostIn_eq ▸ he)]
        exact (h.withHostIn_congr rest).resetBlock_congr
      | word w =>
        rw [fetch_word hs he, fetch_word ht (h.hostIn_eq ▸ he)]
        exact (h.withHostIn_congr rest).receive_congr w

/-- Settles O24, by induction on the number of steps. -/
theorem bytesPastLenUnobservable : Obligations.BytesPastLenUnobservable := by
  intro n
  induction n with
  | zero => exact fun _ _ h => h
  | succ n ih =>
    intro s t h
    have hstep := h.step_congr
    cases hs : step s <;> cases ht : step t <;> rw [hs, ht] at hstep
    case next.next s' t' =>
      rw [run_succ_of_next n hs, run_succ_of_next n ht]
      exact ih s' t' hstep
    case fault.fault =>
      rw [run_succ_of_fault n hs, run_succ_of_fault n ht]
      exact hstep
    case refused.refused =>
      rw [run_succ_of_refused n hs, run_succ_of_refused n ht]
      exact hstep
    all_goals exact hstep.elim

end Sys2Proof.Machine

namespace Sys2Proof.Machine

/-! ## Proofs about the memory (20_memory.md)

The statements about the reads and about the two views of the vector. A read is one of
R223's checks around one answer, so both rest on what a check passes on. -/

/-! ### The reads and LDU32 as their shared operations -/

theorem exec_ldu32 (seed : Word) (s : State) :
    exec (.ldu32 seed) s = whileRunning s (.next (respond (Instr.ldu32 seed).commandWord []
      (s.withInstance (s.arr.memWrite 4 seed.toNat) 4))) := rfl
theorem exec_test (k : BitVec 24) (s : State) :
    exec (.test k) s = withBitIndex (Instr.test k).commandWord k s
      (.next (respond (Instr.test k).commandWord
        [((s.arr.read (byteIndex k) >>> bitOffset k) &&& 1#8).setWidth 32] s)) := rfl
theorem exec_rdu32 (s : State) :
    exec .rdu32 s = withBytes 4 Instr.rdu32.commandWord s
      (.next (respond Instr.rdu32.commandWord [BitVec.ofNat 32 (s.arr.memRead 4)] s)) := rfl
theorem exec_rdu32s (s : State) :
    exec .rdu32s s = withInstanceOf Instr.rdu32s.commandWord s
      (.next (respond Instr.rdu32s.commandWord
        [BitVec.ofNat 32 (s.arr.memRead (min s.length 4))] s)) := rfl
theorem exec_rdu64 (s : State) :
    exec .rdu64 s = withBytes 8 Instr.rdu64.commandWord s
      (.next (respond Instr.rdu64.commandWord
        (payload64 (BitVec.ofNat 64 (s.arr.memRead 8))) s)) := rfl
theorem exec_rdu64s (s : State) :
    exec .rdu64s s = withInstanceOf Instr.rdu64s.commandWord s
      (.next (respond Instr.rdu64s.commandWord
        (payload64 (BitVec.ofNat 64 (s.arr.memRead (min s.length 8)))) s)) := rfl
theorem exec_size (s : State) :
    exec .size s = withInstanceOf Instr.size.commandWord s
      (.next (respond Instr.size.commandWord [s.lenWord] s)) := rfl

/-! ### Checks that pass (R223) -/

section Passed

variable {s : State} (hs : s.halt = false) (hv : s.valid = true)
include hs hv

theorem withInstanceOf_of_valid (w : Word) (run : Result) : withInstanceOf w s run = run := by
  rw [withInstanceOf_of_running hs, if_pos hv]

theorem withBitIndex_of_lt {i : BitVec 24} (hi : i.toNat < 8 * s.length) (w : Word)
    (run : Result) : withBitIndex w i s run = run := by
  rw [withBitIndex, withInstanceOf_of_valid hs hv, if_pos hi]

theorem withBytes_of_le {n : Nat} (hn : n ≤ s.length) (w : Word) (run : Result) :
    withBytes n w s run = run := by
  rw [withBytes, withInstanceOf_of_valid hs hv, if_neg (Nat.not_lt.mpr hn)]

end Passed

/-! ### A read that does not halt the block has answered, and its checks pass again -/

section Answered

variable {w : Word} {payload : List Word} {s t : State}

theorem withInstanceOf_answered
    (h : withInstanceOf w s (.next (respond w payload s)) = .next t) (ht : t.halt = false) :
    t = respond w payload s ∧ ∀ run, withInstanceOf w t run = run := by
  rcases withInstanceOf_next.mp h with ⟨hs, ⟨_, rfl⟩ | ⟨hv, h⟩⟩
  · simp at ht
  · obtain rfl := next_eq_next.mp h
    exact ⟨rfl, withInstanceOf_of_valid (s := respond w payload s) hs hv w⟩

theorem withBitIndex_answered {i : BitVec 24}
    (h : withBitIndex w i s (.next (respond w payload s)) = .next t) (ht : t.halt = false) :
    t = respond w payload s ∧ ∀ run, withBitIndex w i t run = run := by
  rcases withBitIndex_next.mp h with ⟨hs, ⟨_, rfl⟩ | ⟨_, _, rfl⟩ | ⟨hv, hi, h⟩⟩
  · simp at ht
  · simp at ht
  · obtain rfl := next_eq_next.mp h
    exact ⟨rfl, withBitIndex_of_lt (s := respond w payload s) hs hv hi w⟩

theorem withBytes_answered {n : Nat}
    (h : withBytes n w s (.next (respond w payload s)) = .next t) (ht : t.halt = false) :
    t = respond w payload s ∧ ∀ run, withBytes n w t run = run := by
  rcases withBytes_next.mp h with ⟨hs, ⟨_, rfl⟩ | ⟨_, _, rfl⟩ | ⟨hv, hn, h⟩⟩
  · simp at ht
  · simp at ht
  · obtain rfl := next_eq_next.mp h
    exact ⟨rfl, withBytes_of_le (s := respond w payload s) hs hv hn w⟩

end Answered

/-- The commands that only read the vector or its length (R48). -/
def IsRead (i : Instr) : Prop :=
  (∃ k, i = .test k) ∨ i = .rdu32 ∨ i = .rdu32s ∨ i = .rdu64 ∨ i = .rdu64s ∨ i = .size

/-- A read that leaves the block running does nothing but answer, and its answer is computed
from fields that an answer keeps, so it answers the same again. -/
theorem IsRead.answers_again {i : Instr} {s t : State} (hi : IsRead i)
    (h : exec i s = .next t) (ht : t.halt = false) :
    ∃ payload, t = respond i.commandWord payload s ∧
      exec i t = .next (respond i.commandWord payload t) := by
  rcases hi with ⟨k, rfl⟩ | rfl | rfl | rfl | rfl | rfl
  · obtain ⟨rfl, again⟩ := withBitIndex_answered (exec_test k s ▸ h) ht
    exact ⟨_, rfl, again _⟩
  · obtain ⟨rfl, again⟩ := withBytes_answered (exec_rdu32 s ▸ h) ht
    exact ⟨_, rfl, again _⟩
  · obtain ⟨rfl, again⟩ := withInstanceOf_answered (exec_rdu32s s ▸ h) ht
    exact ⟨_, rfl, again _⟩
  · obtain ⟨rfl, again⟩ := withBytes_answered (exec_rdu64 s ▸ h) ht
    exact ⟨_, rfl, again _⟩
  · obtain ⟨rfl, again⟩ := withInstanceOf_answered (exec_rdu64s s ▸ h) ht
    exact ⟨_, rfl, again _⟩
  · obtain ⟨rfl, again⟩ := withInstanceOf_answered (exec_size s ▸ h) ht
    exact ⟨_, rfl, again _⟩

/-- The payload of an OK response can be told from the response port. -/
theorem EndsOk.payload_eq {op : Nat} {answer payload : List Word} {w : Word} {s : State}
    (h : EndsOk op answer s (respond w payload s)) : payload = answer :=
  (List.cons.inj (List.append_cancel_left h.1)).2

/-- Command `i` ends OK when it answers. -/
theorem endsOk_respond_commandWord (i : Instr) (payload : List Word) (s : State) :
    EndsOk i.opcode.toNat payload s (respond i.commandWord payload s) :=
  opField_commandWord i ▸ endsOk_respond i.commandWord payload s

/-- Settles O33: an OK end does not halt the block, so the read has only answered. -/
theorem readsHaveNoSideEffects : Obligations.ReadsHaveNoSideEffects := by
  intro i s t answer hi h hok
  have ⟨_, _, _, hhalt, _⟩ := hok
  have ht : t.halt = false := hhalt.trans (exec_next_effect h).1
  obtain ⟨payload, rfl, again⟩ := IsRead.answers_again hi h ht
  obtain rfl := hok.payload_eq
  exact ⟨rfl, ⟨rfl, rfl⟩, _, again, endsOk_respond_commandWord i _ _⟩

/-! ### The bit view and the integer view (R43) -/

/-- `(v >> b) AND 1` is bit `b` as a word (R124). -/
theorem setWidth_shiftRight_and_one (v : Byte) (b : Nat) :
    ((v >>> b) &&& 1#8).setWidth 32 = if v.getLsbD b then 1#32 else 0#32 := by
  rw [BitVec.and_one_eq_setWidth_ofBool_getLsbD, BitVec.getLsbD_ushiftRight, Nat.add_zero]
  cases v.getLsbD b <;> rfl

/-- TEST of an index in the vector answers that bit (R124). -/
theorem exec_test_of_lt {s : State} {i : BitVec 24} (hs : s.halt = false) (hv : s.valid = true)
    (hi : i.toNat < 8 * s.length) :
    exec (.test i) s = .next (respond (Instr.test i).commandWord
      [if s.bit i.toNat then 1#32 else 0#32] s) := by
  rw [exec_test, withBitIndex_of_lt hs hv hi, setWidth_shiftRight_and_one]
  rfl

/-- The bits that `MemWrite` stores are those of the value (R40, R43). -/
theorem getLsbD_read_memWrite (m : Memory) {n w j : Nat} (v : BitVec w) (hj : j < 8 * n) :
    ((m.memWrite n v.toNat).read (j / 8)).getLsbD (j % 8) = v.getLsbD j := by
  rw [Memory.read_memWrite, if_pos (Nat.div_lt_of_lt_mul hj), ofNat_byte_of_toNat,
    BitVec.getLsbD_extractLsb', Nat.div_add_mod]
  simp [Nat.mod_lt]

/-- Bit `i` of the vector is bit `i` of `MemRead(0, n)` when the `n` bytes reach it (R43). -/
theorem testBit_memRead_eq_bit (s : State) {n i : Nat} (hi : i < 8 * n) :
    (s.arr.memRead n).testBit i = s.bit i := by
  rw [testBit_memRead, decide_eq_true hi, Bool.true_and]
  rfl

/-- LDU32 on a running block makes the vector of its seed (R102). -/
theorem exec_ldu32_of_running {s : State} (hs : s.halt = false) (seed : Word) :
    exec (.ldu32 seed) s = .next (respond (Instr.ldu32 seed).commandWord []
      (s.withInstance (s.arr.memWrite 4 seed.toNat) 4)) := by
  rw [exec_ldu32, whileRunning_of_running hs]

/-- After LDU32 `x`, TEST `i` answers bit `i` of `x`. -/
theorem ldu32_then_test (x : Word) {s : State} {i : BitVec 24} (hs : s.halt = false)
    (hi : i.toNat < 32) :
    ∃ t u, exec (.ldu32 x) s = .next t ∧ exec (.test i) t = .next u ∧
      EndsOk 0x13 [if x.getLsbD i.toNat then 1#32 else 0#32] t u := by
  have hbit : (s.withInstance (s.arr.memWrite 4 x.toNat) 4).bit i.toNat = x.getLsbD i.toNat :=
    getLsbD_read_memWrite s.arr x hi
  rw [← hbit]
  exact ⟨_, _, exec_ldu32_of_running hs x, exec_test_of_lt hs rfl hi,
    endsOk_respond_commandWord (.test i) _ _⟩

/-- The answer of RDU32 holds the vector's first 32 bits (R181). -/
theorem rdu32_answers_bits {s : State} (hs : s.halt = false) (hv : s.valid = true)
    (hlen : 4 ≤ s.length) :
    ∃ t answer, exec .rdu32 s = .next t ∧ EndsOk 0x40 [answer] s t ∧
      ∀ j, j < 32 → answer.getLsbD j = s.bit j := by
  refine ⟨_, _, exec_rdu32 s ▸ withBytes_of_le hs hv hlen _ _,
    endsOk_respond_commandWord .rdu32 _ _, fun j hj => ?_⟩
  rw [BitVec.getLsbD_ofNat, decide_eq_true hj, Bool.true_and, testBit_memRead_eq_bit s hj]

/-- Settles O58, by the bits of `MemRead` and of what `MemWrite` stores. -/
theorem bitViewIsIntegerView : Obligations.BitViewIsIntegerView :=
  ⟨fun s _ hi => (testBit_memRead_eq_bit s hi).symm, fun x _ _ hs hi => ldu32_then_test x hs hi,
    fun _ hs hv hlen => rdu32_answers_bits hs hv hlen⟩

end Sys2Proof.Machine

namespace Sys2Proof

/-! ## Proofs about the encoding (30_encoding.md)

The decoder first: the commands as their words (R62 to R68), the number of words a command
word alone asks for (R67), illegal words (R69, R70) and the bytes of a mask (R65). -/

/-! ### Decoding by format -/

theorem decodeShape_n {w : Word} (h : argField w = 0) (i : Instr) (data : List Word) :
    decodeShape (.n i) w data = .complete i data := by rw [decodeShape, if_pos h]

theorem decodeShape_i (w : Word) (f : BitVec 24 → Instr) (data : List Word) :
    decodeShape (.i f) w data = .complete (f (argField w)) data := rfl

theorem decodeShape_d32 {w : Word} (h : argField w = 0) (f : Word → Instr) (d0 : Word)
    (data : List Word) : decodeShape (.d32 f) w (d0 :: data) = .complete (f d0) data := by
  rw [decodeShape, if_pos h]

theorem decodeShape_d64 {w : Word} (h : argField w = 0) (f : BitVec 64 → Instr) (d0 d1 : Word)
    (data : List Word) :
    decodeShape (.d64 f) w (d0 :: d1 :: data) = .complete (f (joinSeed d0 d1)) data := by
  rw [decodeShape, if_pos h]

/-! ### The words of a command decode to it

One lemma per format, over every command that has the format's opcode, ARG and data words. -/

section RoundTrip

variable (rest : List Word)

theorem decode_encode_n {i : Instr} (hshape : shapeOf i.opcode = some (.n i))
    (harg : i.arg = 0) (hdata : i.dataWords = []) :
    decode (encode i ++ rest) = .complete i rest := by
  rw [encode, List.cons_append, decode_of_shape (by rwa [opField_commandWord]), hdata,
    decodeShape_n (by rwa [argField_commandWord]), List.nil_append]

theorem decode_encode_i {f : BitVec 24 → Instr} {k : BitVec 24}
    (hshape : shapeOf (f k).opcode = some (.i f)) (harg : (f k).arg = k)
    (hdata : (f k).dataWords = []) : decode (encode (f k) ++ rest) = .complete (f k) rest := by
  rw [encode, List.cons_append, decode_of_shape (by rwa [opField_commandWord]), hdata,
    decodeShape_i, argField_commandWord, harg, List.nil_append]

theorem decode_encode_d32 {f : Word → Instr} {d0 : Word}
    (hshape : shapeOf (f d0).opcode = some (.d32 f)) (harg : (f d0).arg = 0)
    (hdata : (f d0).dataWords = [d0]) :
    decode (encode (f d0) ++ rest) = .complete (f d0) rest := by
  rw [encode, List.cons_append, decode_of_shape (by rwa [opField_commandWord]), hdata,
    List.cons_append, decodeShape_d32 (by rwa [argField_commandWord]), List.nil_append]

theorem decode_encode_d64 {f : BitVec 64 → Instr} {seed : BitVec 64}
    (hshape : shapeOf (f seed).opcode = some (.d64 f)) (harg : (f seed).arg = 0)
    (hdata : (f seed).dataWords = [seed.extractLsb' 0 32, seed.extractLsb' 32 32]) :
    decode (encode (f seed) ++ rest) = .complete (f seed) rest := by
  rw [encode, List.cons_append, decode_of_shape (by rwa [opField_commandWord]), hdata,
    List.cons_append, List.cons_append, decodeShape_d64 (by rwa [argField_commandWord]),
    joinSeed_halves, List.nil_append]

/-- ARG of a sendable mask command is the length of the mask, so as many data words are
taken as the mask was packed in. -/
theorem decode_encode_m {f : List Byte → Instr} {mask : List Byte}
    (hshape : shapeOf (f mask).opcode = some (.m f))
    (harg : (f mask).arg = BitVec.ofNat 24 mask.length)
    (hdata : (f mask).dataWords = packMask mask) (hfits : maskFits mask = true) :
    decode (encode (f mask) ++ rest) = .complete (f mask) rest := by
  have hlen : (argField (f mask).commandWord).toNat = mask.length := by
    rw [argField_commandWord, harg, toNat_maskLength hfits]
  have hwords : maskWords (argField (f mask).commandWord).toNat = (packMask mask).length := by
    rw [hlen, length_packMask]
  rw [encode, List.cons_append, decode_of_shape (by rwa [opField_commandWord]), hdata,
    decodeShape_m_of_le (by rw [hwords, List.length_append]; exact Nat.le_add_right ..), hwords,
    List.take_left, List.drop_left, hlen, unpackMask_packMask]

end RoundTrip

/-- Settles O1: each command by its format. -/
theorem decodeInvertsEncode : Obligations.DecodeInvertsEncode := by
  intro i rest h
  cases i with
  | new d0 => exact decode_encode_d32 rest rfl rfl rfl
  | ldu32 seed => exact decode_encode_d32 rest rfl rfl rfl
  | ldu64 seed => exact decode_encode_d64 rest rfl rfl rfl
  | set k => exact decode_encode_i rest rfl rfl rfl
  | clr k => exact decode_encode_i rest rfl rfl rfl
  | flip k => exact decode_encode_i rest rfl rfl rfl
  | test k => exact decode_encode_i rest rfl rfl rfl
  | and mask => exact decode_encode_m rest rfl rfl rfl h
  | or mask => exact decode_encode_m rest rfl rfl rfl h
  | xor mask => exact decode_encode_m rest rfl rfl rfl h
  | clrall | setall | not | rdu32 | rdu32s | rdu64 | rdu64s | size =>
    exact decode_encode_n rest rfl rfl rfl

/-! ### How many words a command has (R67) -/

/-- The command word of a sendable command is legal and gives the number of its words. -/
theorem commandLength_commandWord {i : Instr} (h : i.wellFormed = true) :
    commandLength i.commandWord = some (encode i).length := by
  cases i with
  | new d0 => exact Laws.EncodedLength.new d0 h
  | ldu32 seed => exact Laws.EncodedLength.ldu32 seed h
  | ldu64 seed => exact Laws.EncodedLength.ldu64 seed h
  | set k => exact Laws.EncodedLength.set k h
  | clr k => exact Laws.EncodedLength.clr k h
  | flip k => exact Laws.EncodedLength.flip k h
  | test k => exact Laws.EncodedLength.test k h
  | clrall => exact Laws.EncodedLength.clrall h
  | setall => exact Laws.EncodedLength.setall h
  | not => exact Laws.EncodedLength.not h
  | and mask => exact Laws.EncodedLength.and mask h
  | or mask => exact Laws.EncodedLength.or mask h
  | xor mask => exact Laws.EncodedLength.xor mask h
  | rdu32 => exact Laws.EncodedLength.rdu32 h
  | rdu32s => exact Laws.EncodedLength.rdu32s h
  | rdu64 => exact Laws.EncodedLength.rdu64 h
  | rdu64s => exact Laws.EncodedLength.rdu64s h
  | size => exact Laws.EncodedLength.size h

/-- The number of words that command word `w` asks for when its opcode has the format;
`none` for a nonzero reserved ARG (R62 to R65, R70). -/
def Shape.wordCount (w : Word) : Shape → Option Nat
  | .n _ => if argField w = 0 then some 1 else none
  | .i _ => some 1
  | .d32 _ => if argField w = 0 then some 2 else none
  | .d64 _ => if argField w = 0 then some 3 else none
  | .m _ => some (1 + maskWords (argField w).toNat)

theorem commandLength_of_shape {w : Word} {shape : Shape}
    (h : shapeOf (opField w) = some shape) : commandLength w = shape.wordCount w := by
  simp only [commandLength, h]
  cases shape <;> rfl

/-- A legal command word is incomplete until its `n` words are there, and complete from then
on, whatever they hold. -/
theorem decode_of_commandLength {w : Word} {n : Nat} (h : commandLength w = some n)
    (data : List Word) :
    (data.length + 1 < n ∧ decode (w :: data) = .incomplete) ∨
      (n ≤ data.length + 1 ∧ ∃ i rest, decode (w :: data) = .complete i rest) := by
  cases hs : shapeOf (opField w) with
  | none => simp [commandLength, hs] at h
  | some shape =>
    rw [commandLength_of_shape hs] at h
    rw [decode_of_shape hs]
    cases shape with
    | n i =>
      obtain ⟨harg, rfl⟩ : argField w = 0 ∧ 1 = n := by simpa [Shape.wordCount] using h
      exact .inr ⟨by omega, _, _, decodeShape_n harg i data⟩
    | i f =>
      obtain rfl : 1 = n := by simpa [Shape.wordCount] using h
      exact .inr ⟨by omega, _, _, decodeShape_i w f data⟩
    | d32 f =>
      obtain ⟨harg, rfl⟩ : argField w = 0 ∧ 2 = n := by simpa [Shape.wordCount] using h
      cases data with
      | nil => exact .inl ⟨by simp, by simp [decodeShape, harg]⟩
      | cons d0 rest => exact .inr ⟨by simp, _, _, decodeShape_d32 harg f d0 rest⟩
    | d64 f =>
      obtain ⟨harg, rfl⟩ : argField w = 0 ∧ 3 = n := by simpa [Shape.wordCount] using h
      match data with
      | [] | [_] => exact .inl ⟨by simp, by simp [decodeShape, harg]⟩
      | d0 :: d1 :: rest => exact .inr ⟨by simp, _, _, decodeShape_d64 harg f d0 d1 rest⟩
    | m f =>
      obtain rfl : 1 + maskWords (argField w).toNat = n := by simpa [Shape.wordCount] using h
      by_cases hlt : data.length < maskWords (argField w).toNat
      · exact .inl ⟨by omega, decodeShape_m_of_lt hlt⟩
      · exact .inr ⟨by omega, _, _, decodeShape_m_of_le (Nat.not_lt.mp hlt)⟩

/-- Settles O2: the command word, if it is there, says how many words are missing. -/
theorem truncatedCommandIsIncomplete : Obligations.TruncatedCommandIsIncomplete := by
  intro i n h hn
  cases n with
  | zero => rfl
  | succ k =>
    have hlen : (i.dataWords.take k).length + 1 < (encode i).length := by
      rw [List.length_take]
      omega
    rw [encode, List.take_succ_cons]
    rcases decode_of_commandLength (commandLength_commandWord h) (i.dataWords.take k) with
      ⟨_, hdec⟩ | ⟨hge, _⟩
    · exact hdec
    · omega

/-! ### Illegal command words (R69, R70) -/

/-- A reserved OP is not in the opcode map: none of the map's opcodes lies in a reserved
range. -/
theorem shapeOf_of_opReserved {op : BitVec 8} (h : Machine.opReserved op) :
    shapeOf op = none := by
  unfold shapeOf
  split
  case h_19 => rfl
  all_goals simp [Machine.opReserved] at h

/-- Formats N, D32 and D64, whose ARG is reserved (R62, R64). -/
def Shape.argReserved : Shape → Bool
  | .n _ | .d32 _ | .d64 _ => true
  | .i _ | .m _ => false

theorem shapeOf_of_mem_opsWithReservedArg {op : BitVec 8} (h : op ∈ Machine.opsWithReservedArg) :
    ∃ shape, shapeOf op = some shape ∧ shape.argReserved = true := by
  have hall : ∀ op ∈ Machine.opsWithReservedArg, (shapeOf op).any Shape.argReserved = true := by
    decide
  simpa [Option.any_eq_true] using hall op h

theorem shapeOf_of_mem_opsWithFreeArg {op : BitVec 8} (h : op ∈ Machine.opsWithFreeArg) :
    ∃ shape, shapeOf op = some shape ∧ shape.argReserved = false := by
  have hall : ∀ op ∈ Machine.opsWithFreeArg, (shapeOf op).any (!·.argReserved) = true := by
    decide
  simpa [Option.any_eq_true] using hall op h

/-- A nonzero reserved ARG is illegal, whatever follows (R70). -/
theorem decodeShape_of_reservedArg {shape : Shape} {w : Word} (hshape : shape.argReserved = true)
    (harg : argField w ≠ 0) (data : List Word) :
    decodeShape shape w data = .illegal .nonzeroArg w := by
  cases shape with
  | n | d32 | d64 => exact if_neg harg
  | i | m => cases hshape

/-- Nothing else that a command word of the opcode map can hold is illegal (R70). -/
theorem commandLength_of_legal {shape : Shape} {w : Word}
    (h : shapeOf (opField w) = some shape) (harg : shape.argReserved = true → argField w = 0) :
    ∃ n, commandLength w = some n := by
  rw [commandLength_of_shape h]
  cases shape with
  | n | d32 | d64 => exact ⟨_, if_pos (harg rfl)⟩
  | i | m => exact ⟨_, rfl⟩

/-! ### Which operand an opcode makes of its words -/

/-- Settles O5: each row of R79 is one run of the decoder on given words. -/
theorem workedEncodingsDecode : Obligations.WorkedEncodingsDecode := by
  unfold Obligations.WorkedEncodingsDecode
  and_intros <;> rfl

/-- R64's operand is the concatenation of the two data words. -/
theorem joinSeed_eq_ofNat (d0 d1 : Word) :
    joinSeed d0 d1 = BitVec.ofNat 64 (d1.toNat * 2 ^ 32 + d0.toNat) := by
  rw [joinSeed, ← Machine.toNat_append_eq, BitVec.ofNat_toNat, BitVec.setWidth_eq]

/-- Format I takes its operand from ARG alone (R63). -/
theorem decode_of_shape_i {w : Word} {op : BitVec 8} {f : BitVec 24 → Instr}
    (hop : w.extractLsb' 0 8 = op) (hshape : shapeOf op = some (.i f)) (rest : List Word) :
    decode (w :: rest) = .complete (f (w.extractLsb' 8 24)) rest :=
  decode_of_shape (hop ▸ hshape) rest

/-- Settles O6: format I by its ARG, the other formats as the words of the command they
spell. -/
theorem fixedFormatOperands : Obligations.FixedFormatOperands := by
  intro w d0 d1 rest
  refine ⟨fun h => decode_of_shape_i h rfl rest, fun h => decode_of_shape_i h rfl rest,
    fun h => decode_of_shape_i h rfl rest, fun h => decode_of_shape_i h rfl rest,
    ?_, ?_, ?_, ?_⟩
  · exact commandWord_new d0 ▸ decodeInvertsEncode (.new d0) rest rfl
  · exact commandWord_ldu32 d0 ▸ decodeInvertsEncode (.ldu32 d0) rest rfl
  · rw [← joinSeed_eq_ofNat]
    exact decodeShape_d64 (w := 0x03#32) rfl .ldu64 d0 d1 rest
  · exact ⟨commandWord_clrall ▸ decodeInvertsEncode .clrall rest rfl,
      commandWord_setall ▸ decodeInvertsEncode .setall rest rfl,
      commandWord_not ▸ decodeInvertsEncode .not rest rfl,
      commandWord_rdu32 ▸ decodeInvertsEncode .rdu32 rest rfl,
      commandWord_rdu32s ▸ decodeInvertsEncode .rdu32s rest rfl,
      commandWord_rdu64 ▸ decodeInvertsEncode .rdu64 rest rfl,
      commandWord_rdu64s ▸ decodeInvertsEncode .rdu64s rest rfl,
      commandWord_size ▸ decodeInvertsEncode .size rest rfl⟩

/-! ### The bytes of a mask (R65) -/

@[simp] theorem length_flatMap_wordBytes (data : List Word) :
    (data.flatMap wordBytes).length = 4 * data.length := by
  induction data with
  | nil => rfl
  | cons d data ih =>
    rw [List.flatMap_cons, List.length_append, ih, List.length_cons]
    simp only [wordBytes, List.length_cons, List.length_nil]
    omega

/-- Byte `k` of a data word. -/
theorem getD_wordBytes (d : Word) {k : Nat} (hk : k < 4) :
    (wordBytes d).getD k 0#8 = d.extractLsb' (8 * k) 8 := by
  match k with
  | 0 | 1 | 2 | 3 => rfl

/-- Byte `k` of the data words side by side is byte `k % 4` of word `k / 4`. -/
theorem getD_flatMap_wordBytes (data : List Word) (k : Nat) :
    (data.flatMap wordBytes).getD k 0#8 =
      (data.getD (k / 4) 0#32).extractLsb' (8 * (k % 4)) 8 := by
  induction data generalizing k with
  | nil => simp
  | cons d data ih =>
    have hlen : (wordBytes d).length = 4 := rfl
    rw [List.flatMap_cons]
    by_cases hk : k < 4
    · rw [List.getD_append _ _ _ _ (by omega), getD_wordBytes d hk, Nat.div_eq_of_lt hk,
        Nat.mod_eq_of_lt hk, List.getD_cons_zero]
    · obtain ⟨j, rfl⟩ : ∃ j, k = j + 4 := ⟨k - 4, by omega⟩
      rw [List.getD_append_right _ _ _ _ (by omega), hlen, Nat.add_sub_cancel, ih,
        Nat.add_div_right j (by decide), Nat.add_mod_right, List.getD_cons_succ]

/-- The first `n` elements are the list's. -/
theorem getD_take_of_lt {α : Type} (l : List α) {k n : Nat} (hk : k < n) (d : α) :
    (l.take n).getD k d = l.getD k d := by
  rw [List.getD_eq_getElem?_getD, List.getElem?_take_of_lt hk, List.getD_eq_getElem?_getD]

theorem length_unpackMask {mlen : Nat} {data : List Word} (h : maskWords mlen ≤ data.length) :
    (unpackMask mlen data).length = mlen := by
  rw [unpackMask, List.length_take, length_flatMap_wordBytes]
  unfold maskWords at h
  omega

/-- Mask byte `k` is byte `k % 4` of data word `k / 4`. -/
theorem getD_unpackMask {mlen k : Nat} (hk : k < mlen) (data : List Word) :
    (unpackMask mlen data).getD k 0#8 =
      (data.getD (k / 4) 0#32).extractLsb' (8 * (k % 4)) 8 := by
  rw [unpackMask, getD_take_of_lt _ hk, getD_flatMap_wordBytes]

/-- The three mask opcodes are of format M. -/
theorem shapeOf_of_maskOp {op : BitVec 8} {f : List Byte → Instr}
    (h : (op = 0x30#8 ∧ f = .and) ∨ (op = 0x31#8 ∧ f = .or) ∨ (op = 0x32#8 ∧ f = .xor)) :
    shapeOf op = some (.m f) := by
  rcases h with ⟨rfl, rfl⟩ | ⟨rfl, rfl⟩ | ⟨rfl, rfl⟩ <;> rfl

/-- Settles O7: format M with its data words missing, and with all of them. -/
theorem maskOperandLayout : Obligations.MaskOperandLayout := by
  intro w data f hf
  have hdec := decode_of_shape (w := w) (shapeOf_of_maskOp hf) data
  refine ⟨fun hlt => hdec.trans (decodeShape_m_of_lt hlt), fun hle => ?_⟩
  have hlen := length_unpackMask (mlen := (argField w).toNat)
    (data := data.take (maskWords (argField w).toNat))
    (List.length_take ▸ le_min le_rfl hle)
  refine ⟨_, hdec.trans (decodeShape_m_of_le hle), hlen, fun k hk => ?_⟩
  rw [hlen] at hk
  have hword : k / 4 < maskWords (argField w).toNat := by
    unfold maskWords
    omega
  rw [getD_unpackMask hk, getD_take_of_lt _ hword]

end Sys2Proof

namespace Sys2Proof.Machine

/-! ### A word at the port of a running block (R67, R69, R70)

What the step that takes it does, by what the words received then spell. -/

section TakeWord

variable {s : State} {w : Word} {rest : List HostEvent} (hrun : s.halt = false)
  (hin : s.hostIn = .word w :: rest)
include hrun hin

theorem step_of_illegal {why : Illegal} {c : Word}
    (hdec : decode (s.rxbuf ++ [w]) = .illegal why c) :
    step s = .next (raiseFault .illegalCmd c c (s.withHostIn rest)) := by
  rw [step, fetch_word hrun hin, receive, State.withHostIn_rxbuf, hdec]

theorem step_of_incomplete (hdec : decode (s.rxbuf ++ [w]) = .incomplete) :
    step s = .next ((s.withHostIn rest).withRxbuf (s.rxbuf ++ [w])) := by
  rw [step, fetch_word hrun hin, receive, State.withHostIn_rxbuf, hdec]

theorem step_of_complete {i : Instr} {more : List Word}
    (hdec : decode (s.rxbuf ++ [w]) = .complete i more) :
    step s = exec i ((s.withHostIn rest).withRxbuf (s.rxbuf ++ [w])) := by
  rw [step, fetch_word hrun hin, receive, State.withHostIn_rxbuf, hdec]

/-- An illegal command word ends in the fault ILLEGAL_CMD with `INFO = W` (R69, R70). -/
theorem step_faults_of_illegal_commandWord (hrx : s.rxbuf = []) {why : Illegal}
    (hdec : decode [w] = .illegal why w) :
    ∃ t, step s = .next t ∧ EndsFault 1 (opField w).toNat w (s.withHostIn rest) t :=
  ⟨_, step_of_illegal hrun hin (by rwa [hrx]), endsFault_raiseFault .illegalCmd w w _⟩

end TakeWord

/-- Settles O8: taking the word completes the command. -/
theorem stepRunsDecodedCommand : Obligations.StepRunsDecodedCommand :=
  fun _ _ _ _ hrun hin hdec => step_of_complete hrun hin hdec

/-- Settles O9: taking the word leaves the command incomplete. -/
theorem stepHoldsPartialCommand : Obligations.StepHoldsPartialCommand :=
  fun _ _ _ hrun hin hdec => step_of_incomplete hrun hin hdec

/-- Settles O3: a reserved OP is not in the opcode map. -/
theorem reservedOpcodeFaults : Obligations.ReservedOpcodeFaults :=
  fun _ _ _ hop hrun hrx hin => step_faults_of_illegal_commandWord hrun hin hrx
    (decode_of_reserved (shapeOf_of_opReserved hop) [])

/-- Settles O4: ARG matters to the formats that reserve it, and a legal command word has a
length, which only tells how many words are missing. -/
theorem reservedArgFaults : Obligations.ReservedArgFaults := by
  constructor
  · intro w rest s hop harg hrun hrx hin
    obtain ⟨shape, hshape, hres⟩ := shapeOf_of_mem_opsWithReservedArg hop
    exact step_faults_of_illegal_commandWord hrun hin hrx
      ((decode_of_shape hshape []).trans (decodeShape_of_reservedArg hres harg []))
  · intro w data h
    obtain ⟨n, hn⟩ : ∃ n, commandLength w = some n := by
      rcases h with ⟨hop, harg⟩ | hop
      · obtain ⟨shape, hshape, -⟩ := shapeOf_of_mem_opsWithReservedArg hop
        exact commandLength_of_legal hshape fun _ => harg
      · obtain ⟨shape, hshape, hfree⟩ := shapeOf_of_mem_opsWithFreeArg hop
        exact commandLength_of_legal hshape fun hres => by simp [hfree] at hres
    exact (decode_of_commandLength hn data).imp And.right And.right

/-! ### The words of a command, one by one -/

/-- The words in RXBUF and the words `left` that the host offers make up the command: as many
steps as words are left run it. Every word but the last leaves an incomplete command. -/
theorem run_remaining_words {words : List Word} {i : Instr} {rest : List HostEvent}
    (hpartial : ∀ n < words.length, decode (words.take n) = .incomplete)
    (hwhole : decode words = .complete i []) {left : List Word} {s : State} (hne : left ≠ [])
    (hwords : s.rxbuf ++ left = words) (hrun : s.halt = false)
    (hin : s.hostIn = left.map .word ++ rest) :
    Sys2Proof.core.run left.length s = exec i ((s.withHostIn rest).withRxbuf words) := by
  induction left generalizing s with
  | nil => exact absurd rfl hne
  | cons w left ih =>
    have hjoin : (s.rxbuf ++ [w]) ++ left = words := by simpa using hwords
    cases left with
    | nil =>
      obtain rfl : s.rxbuf ++ [w] = words := by simpa using hjoin
      exact (run_one s).trans (step_of_complete hrun hin hwhole)
    | cons w' left =>
      have hdec : decode (s.rxbuf ++ [w]) = .incomplete := by
        have hlt : (s.rxbuf ++ [w]).length < words.length := by simp [← hjoin]
        have htake : words.take (s.rxbuf ++ [w]).length = s.rxbuf ++ [w] :=
          hjoin ▸ List.take_left
        exact htake ▸ hpartial _ hlt
      rw [List.length_cons, run_succ_of_next _ (step_of_incomplete hrun hin hdec)]
      exact ih (List.cons_ne_nil _ _) hjoin hrun rfl

/-- Settles O16: a command is incomplete until its last word (O2) and then decodes to itself
(O1). -/
theorem wholeCommandRuns : Obligations.WholeCommandRuns := by
  intro i rest s hwf hrun hrx hin
  have hwhole : decode (encode i) = .complete i [] := by
    simpa using decodeInvertsEncode i [] hwf
  exact run_remaining_words (fun n hn => truncatedCommandIsIncomplete i n hwf hn) hwhole
    (List.cons_ne_nil _ _) (hrx ▸ List.nil_append _) hrun hin

/-- Settles O17: a complete command has a last word, and placing it leaves just that word to be
taken. -/
theorem placedCommandRuns : Obligations.PlacedCommandRuns := by
  intro nbits w i s hrun hdec
  have hne : tableWords nbits w ≠ [] := by
    intro hnil
    rw [hnil] at hdec
    cases hdec
  rw [State.withFetchWord, placeCommand_of_ne_nil hne]
  have hjoin := List.dropLast_append_getLast hne
  have hstep := step_of_complete (i := i) (more := [])
    (s := (s.withRxbuf (tableWords nbits w).dropLast).withHostIn
      (.word ((tableWords nbits w).getLast hne) :: s.hostIn)) hrun rfl (hjoin.symm ▸ hdec)
  exact hstep.trans (congrArg (fun ws => exec i (s.withRxbuf ws)) hjoin)

/-! ### Responses -/

/-- What a command does to the response port is to add to it (R78). -/
theorem ExecEffect.respOut_append {i : Instr} {s t : State} (effect : ExecEffect i s t) :
    ∃ words, t.respOut = s.respOut ++ words := by
  cases effect with
  | faulted | rejected | answered | wroteByte | wroteAll | constructed => exact ⟨_, rfl⟩

/-- Settles O19, by what a step can do: `resetBlock` and a step without a response keep what
has left, and `raiseFault` and the commands add to it. -/
theorem responsesOnlyGrow : Obligations.ResponsesOnlyGrow := by
  intro s t h
  rcases step_next_cases h with ⟨_, _, rfl⟩ | ⟨_, _, rfl⟩ | ⟨rest, _, _, rfl⟩ |
    ⟨w, rest, why, c, _, _, _, rfl⟩ | ⟨w, rest, _, _, _, rfl⟩ | ⟨w, rest, i, more, _, _, _, hexec⟩
  · exact ⟨[], by simp⟩
  · exact ⟨[], by simp⟩
  · exact ⟨[], by simp⟩
  · exact ⟨_, rfl⟩
  · exact ⟨[], by simp⟩
  · exact (exec_next_effect hexec).2.respOut_append

end Sys2Proof.Machine

namespace Sys2Proof.Asm

/-! ## Proofs about the text of a command (R72, R73)

A line the disassembler prints is pieces of plain characters with separators between them, so
its tokens are those pieces; each piece is a mnemonic or a number that reads as what was
printed. -/

/-- Settles O60: each name is one look-up in the table. -/
theorem aliasesNameTheirCommands : Obligations.AliasesNameTheirCommands := by
  unfold Obligations.AliasesNameTheirCommands
  and_intros <;> rfl

/-! ### Tokens -/

/-- A character that neither ends a piece nor starts a comment. -/
def isPlain (c : Char) : Bool := !(c = ';' || isBlank c || c = '[' || c = ']' || c = ',')

theorem tokensFrom_cons_of_plain {c : Char} (h : isPlain c = true) (cur cs : List Char) :
    tokensFrom cur (c :: cs) = tokensFrom (cur ++ [c]) cs := by
  simp only [isPlain, Bool.not_eq_true', Bool.or_eq_false_iff, decide_eq_false_iff_not] at h
  obtain ⟨⟨⟨⟨hsemi, hblank⟩, hlbrack⟩, hrbrack⟩, hcomma⟩ := h
  simp [tokensFrom, hsemi, hblank, hlbrack, hrbrack, hcomma]

/-- Plain characters join the piece being collected. -/
theorem tokensFrom_append_of_plain {cs : List Char} (h : ∀ c ∈ cs, isPlain c = true)
    (cur rest : List Char) : tokensFrom cur (cs ++ rest) = tokensFrom (cur ++ cs) rest := by
  induction cs generalizing cur with
  | nil => simp
  | cons c cs ih =>
    rw [List.cons_append, tokensFrom_cons_of_plain (h c List.mem_cons_self),
      ih (fun d hd => h d (List.mem_cons_of_mem c hd)), List.append_assoc, List.singleton_append]

theorem tokensFrom_nil (cur : List Char) : tokensFrom cur [] = flushWord cur := rfl

theorem tokensFrom_blank (cur cs : List Char) :
    tokensFrom cur (' ' :: cs) = flushWord cur ++ tokensFrom [] cs := rfl

theorem tokensFrom_lbrack (cur cs : List Char) :
    tokensFrom cur ('[' :: cs) = flushWord cur ++ .lbrack :: tokensFrom [] cs := rfl

theorem tokensFrom_rbrack (cur cs : List Char) :
    tokensFrom cur (']' :: cs) = flushWord cur ++ .rbrack :: tokensFrom [] cs := rfl

theorem tokensFrom_comma (cur cs : List Char) :
    tokensFrom cur (',' :: cs) = flushWord cur ++ .comma :: tokensFrom [] cs := rfl

theorem flushWord_of_ne_nil {cs : List Char} (h : cs ≠ []) : flushWord cs = [.word cs] := by
  cases cs with
  | nil => exact absurd rfl h
  | cons => rfl

/-- A piece: plain characters, one at least. -/
def IsPiece (cs : List Char) : Prop := cs ≠ [] ∧ ∀ c ∈ cs, isPlain c = true

theorem isPiece_of_all {cs : List Char} (hne : cs.isEmpty = false) (h : cs.all isPlain = true) :
    IsPiece cs := ⟨List.isEmpty_eq_false_iff.mp hne, List.all_eq_true.mp h⟩

/-- A piece is collected whole. -/
theorem IsPiece.tokensFrom_append {cs : List Char} (h : IsPiece cs) (rest : List Char) :
    tokensFrom [] (cs ++ rest) = tokensFrom cs rest :=
  tokensFrom_append_of_plain h.2 [] rest

theorem IsPiece.flushWord {cs : List Char} (h : IsPiece cs) : flushWord cs = [.word cs] :=
  flushWord_of_ne_nil h.1

/-- A piece alone is one token. -/
theorem IsPiece.tokens {cs : List Char} (h : IsPiece cs) : tokens cs = [.word cs] := by
  have htokens := h.tokensFrom_append []
  rwa [List.append_nil, tokensFrom_nil, h.flushWord] at htokens

theorem IsPiece.append {xs ys : List Char} (hx : IsPiece xs) (hy : IsPiece ys) :
    IsPiece (xs ++ ys) :=
  ⟨List.append_ne_nil_of_left_ne_nil hx.1 ys,
    fun c hc => (List.mem_append.mp hc).elim (hx.2 c) (hy.2 c)⟩

/-! ### Digits -/

theorem isPiece_digitChar {v : Nat} (h : v < 16) : IsPiece [digitChar v] := by
  have hplain : ∀ v < 16, [digitChar v].all isPlain = true := by decide
  exact isPiece_of_all rfl (hplain v h)

/-- A printed digit reads as its value in every base that has it. -/
theorem digitValue_digitChar {base v : Nat} (hbase : base ≤ 16) (hv : v < base) :
    digitValue base (digitChar v) = some v := by
  have h : ∀ base ≤ 16, ∀ v < base, digitValue base (digitChar v) = some v := by decide
  exact h base hbase v hv

theorem digitsFrom_append (base acc : Nat) (xs ys : List Char) :
    digitsFrom base acc (xs ++ ys) =
      (digitsFrom base acc xs).bind (fun a => digitsFrom base a ys) := by
  induction xs generalizing acc with
  | nil => rfl
  | cons x xs ih =>
    rw [List.cons_append, digitsFrom, digitsFrom]
    cases digitValue base x with
    | none => rfl
    | some v => exact ih _

theorem digitsFrom_digitChar {base v : Nat} (hbase : base ≤ 16) (hv : v < base) :
    digitsFrom base 0 [digitChar v] = some v := by
  simp [digitsFrom, digitValue_digitChar hbase hv]

/-- One digit more at the end. -/
theorem digitsFrom_append_digitChar {base a v : Nat} {xs : List Char} (hbase : base ≤ 16)
    (hv : v < base) (hxs : digitsFrom base 0 xs = some a) :
    digitsFrom base 0 (xs ++ [digitChar v]) = some (a * base + v) := by
  rw [digitsFrom_append, hxs, Option.bind_some, digitsFrom, digitValue_digitChar hbase hv]
  rfl

theorem digits_of_ne_nil {cs : List Char} (h : cs ≠ []) (base : Nat) :
    digits base cs = digitsFrom base 0 cs := by
  cases cs with
  | nil => exact absurd rfl h
  | cons => rfl

/-! ### Decimal numbers -/

theorem isPiece_decimal (fuel n : Nat) : IsPiece (decimal fuel n) := by
  induction fuel generalizing n with
  | zero => exact isPiece_digitChar (by omega)
  | succ fuel ih =>
    rw [decimal]
    split
    · exact isPiece_digitChar (by omega)
    · exact (ih _).append (isPiece_digitChar (by omega))

/-- The decimal digits of `n`, when they are enough, spell `n`. -/
theorem digitsFrom_decimal {fuel n : Nat} (h : n < 10 ^ (fuel + 1)) :
    digitsFrom 10 0 (decimal fuel n) = some n := by
  induction fuel generalizing n with
  | zero =>
    have hlt : n < 10 := h
    rw [decimal, Nat.mod_eq_of_lt hlt]
    exact digitsFrom_digitChar (by decide) hlt
  | succ fuel ih =>
    rw [decimal]
    split
    next hlt => exact digitsFrom_digitChar (by decide) hlt
    next =>
      have hdiv : n / 10 < 10 ^ (fuel + 1) := Nat.div_lt_of_lt_mul (by rwa [← Nat.pow_succ'])
      rw [digitsFrom_append_digitChar (by decide) (Nat.mod_lt n (by decide)) (ih hdiv),
        Nat.div_add_mod']

theorem digits_decimal {fuel n : Nat} (h : n < 10 ^ (fuel + 1)) :
    digits 10 (decimal fuel n) = some n := by
  rw [digits_of_ne_nil (isPiece_decimal fuel n).1, digitsFrom_decimal h]

/-- What reads as decimal digits is no sign and no hexadecimal literal. -/
theorem number_of_digits {cs : List Char} {n : Nat} (h : digits 10 cs = some n) :
    number cs = some (.dec n) := by
  unfold number
  split
  · cases h
  · cases h
  · rw [h]
    rfl

theorem number_decimal {fuel n : Nat} (h : n < 10 ^ (fuel + 1)) :
    number (decimal fuel n) = some (.dec n) := number_of_digits (digits_decimal h)

theorem number_neg_decimal {fuel n : Nat} (h : n < 10 ^ (fuel + 1)) :
    number ('-' :: decimal fuel n) = some (.dec (-(n : Int))) := by
  rw [number, digits_decimal h]
  rfl

/-! ### Hexadecimal literals -/

theorem isPlain_of_mem_hexDigits (width n : Nat) : ∀ c ∈ hexDigits width n, isPlain c = true := by
  induction width generalizing n with
  | zero => simp [hexDigits]
  | succ width ih =>
    intro c hc
    exact (List.mem_append.mp hc).elim (ih _ c) ((isPiece_digitChar (by omega)).2 c)

theorem isPiece_hexLiteral (width n : Nat) : IsPiece (hexLiteral width n) :=
  ⟨List.cons_ne_nil _ _, by
    simpa [hexLiteral] using ⟨by decide, by decide, isPlain_of_mem_hexDigits width n⟩⟩

/-- The hexadecimal digits of `n`, when they are enough, spell `n`. -/
theorem digitsFrom_hexDigits {width n : Nat} (h : n < 16 ^ width) :
    digitsFrom 16 0 (hexDigits width n) = some n := by
  induction width generalizing n with
  | zero =>
    obtain rfl : n = 0 := by simpa using h
    rfl
  | succ width ih =>
    have hdiv : n / 16 < 16 ^ width := Nat.div_lt_of_lt_mul (by rwa [← Nat.pow_succ'])
    rw [hexDigits, digitsFrom_append_digitChar (by decide) (Nat.mod_lt n (by decide)) (ih hdiv),
      Nat.div_add_mod']

theorem number_hexLiteral {width n : Nat} (hpos : 0 < width) (h : n < 16 ^ width) :
    number (hexLiteral width n) = some (.hex n) := by
  have hne : hexDigits width n ≠ [] := by
    obtain ⟨k, rfl⟩ := Nat.exists_eq_add_of_lt hpos
    simp [hexDigits]
  rw [hexLiteral, number, digits_of_ne_nil hne, digitsFrom_hexDigits h]
  rfl

/-! ### Operands -/

/-- A number in range is read as itself. -/
theorem unsignedBelow_of_number {bound n : Nat} {cs : List Char} {v : Number}
    (hcs : number cs = some v) (hv : v.value = n) (hn : n < bound) :
    unsignedBelow bound cs = .ok n := by
  simp [unsignedBelow, hcs, hv, hn]

theorem unsignedBelow_hexLiteral {bound width n : Nat} (hpos : 0 < width) (hn : n < bound)
    (hwidth : bound ≤ 16 ^ width) : unsignedBelow bound (hexLiteral width n) = .ok n :=
  unsignedBelow_of_number (number_hexLiteral hpos (hn.trans_le hwidth)) rfl hn

theorem unsignedBelow_showIndex (i : BitVec 24) :
    unsignedBelow (2 ^ 24) (showIndex i) = .ok i.toNat :=
  unsignedBelow_of_number (number_decimal (i.isLt.trans (by decide))) rfl i.isLt

/-- The sign and the digits of NEW's count read as the count. -/
theorem number_showCount (d0 : Word) : number (showCount d0) = some (.dec d0.toInt) := by
  have hlt : d0.toInt.natAbs < 10 ^ (9 + 1) := by
    have := d0.toInt_lt
    have := d0.le_toInt
    omega
  rw [showCount]
  split
  · rw [number_neg_decimal hlt]
    congr 2
    omega
  · rw [number_decimal hlt]
    congr 2
    omega

theorem isPiece_showCount (d0 : Word) : IsPiece (showCount d0) := by
  rw [showCount]
  split
  · exact IsPiece.append (xs := ['-']) (isPiece_of_all rfl rfl) (isPiece_decimal 9 _)
  · exact isPiece_decimal _ _

theorem countWord_showCount (d0 : Word) : countWord (showCount d0) = .ok d0 := by
  have hlo : -(2 ^ 31 : Int) ≤ d0.toInt := d0.le_toInt
  have hhi : d0.toInt < 2 ^ 31 := d0.toInt_lt
  simp only [countWord, number_showCount, if_pos (And.intro hlo hhi), BitVec.ofInt_toInt]

/-! ### Byte lists -/

theorem unsignedBelow_byte (b : Byte) : unsignedBelow 256 (hexLiteral 2 b.toNat) = .ok b.toNat :=
  unsignedBelow_hexLiteral (by decide) b.isLt (by decide)

/-- The tokens after the opening bracket read as the bytes. -/
theorem bytesFrom_showMore (b : Byte) (bs : List Byte) :
    bytesFrom (tokensFrom [] (hexLiteral 2 b.toNat ++ showMore bs)) = .ok (b :: bs) := by
  induction bs generalizing b with
  | nil =>
    have hpiece := isPiece_hexLiteral 2 b.toNat
    rw [hpiece.tokensFrom_append, showMore, tokensFrom_rbrack, hpiece.flushWord]
    simp [tokensFrom_nil, flushWord, bytesFrom, unsignedBelow_byte, Except.map]
  | cons b' bs ih =>
    have hpiece := isPiece_hexLiteral 2 b.toNat
    rw [hpiece.tokensFrom_append, showMore, tokensFrom_comma, hpiece.flushWord, tokensFrom_blank]
    simp [flushWord, bytesFrom, unsignedBelow_byte, Except.map, ih]

theorem byteList_of_bytesFrom {rest : List Token} {bs : List Byte} (h : bytesFrom rest = .ok bs)
    (hfits : maskFits bs = true) : byteList (.lbrack :: rest) = .ok bs := by
  unfold byteList
  split
  next heq =>
    cases heq
    cases h
  next heq =>
    cases heq
    simp [h, hfits]
  next hother => exact absurd rfl (hother rest)

/-- A sendable mask's byte list reads as the mask. -/
theorem byteList_showBytes {mask : List Byte} (h : maskFits mask = true) :
    byteList (tokens (showBytes mask)) = .ok mask := by
  cases mask with
  | nil => rfl
  | cons b bs =>
    rw [showBytes, tokens, tokensFrom_lbrack]
    exact byteList_of_bytesFrom (bytesFrom_showMore b bs) h

/-! ### Lines -/

theorem assembleLine_line {mnemonic : String} {operand : List Char} {form : Form} {i : Instr}
    (hpiece : IsPiece mnemonic.toList) (hform : formOf mnemonic.toList = some form)
    (hoperand : withOperand form (tokens operand) = .ok i) :
    assembleLine (line mnemonic operand) = .ok (some i) := by
  have htokens : tokens (line mnemonic operand) = .word mnemonic.toList :: tokens operand := by
    rw [line, tokens, hpiece.tokensFrom_append, tokensFrom_blank, hpiece.flushWord]
    rfl
  simp only [assembleLine, htokens, parseTokens, hform, hoperand, Except.map]

theorem assembleLine_bare {mnemonic : String} {i : Instr} (hpiece : IsPiece mnemonic.toList)
    (hform : formOf mnemonic.toList = some (.bare i)) :
    assembleLine mnemonic.toList = .ok (some i) := by
  simp only [assembleLine, hpiece.tokens, parseTokens, hform, withOperand, Except.map]

theorem withOperand_index (f : BitVec 24 → Instr) (k : BitVec 24) :
    withOperand (.index f) (tokens (showIndex k)) = .ok (f k) := by
  have hpiece : IsPiece (showIndex k) := isPiece_decimal 7 k.toNat
  rw [hpiece.tokens, withOperand, unsignedBelow_showIndex]
  simp [Except.map]

theorem withOperand_count (f : Word → Instr) (d0 : Word) :
    withOperand (.count f) (tokens (showCount d0)) = .ok (f d0) := by
  rw [(isPiece_showCount d0).tokens, withOperand, countWord_showCount]
  rfl

theorem withOperand_seed32 (f : Word → Instr) (seed : Word) :
    withOperand (.seed32 f) (tokens (hexLiteral 8 seed.toNat)) = .ok (f seed) := by
  rw [(isPiece_hexLiteral 8 seed.toNat).tokens, withOperand,
    unsignedBelow_hexLiteral (by decide) seed.isLt (by decide)]
  simp [Except.map]

theorem withOperand_seed64 (f : BitVec 64 → Instr) (seed : BitVec 64) :
    withOperand (.seed64 f) (tokens (hexLiteral 16 seed.toNat)) = .ok (f seed) := by
  rw [(isPiece_hexLiteral 16 seed.toNat).tokens, withOperand,
    unsignedBelow_hexLiteral (by decide) seed.isLt (by decide)]
  simp [Except.map]

theorem withOperand_bytes (f : List Byte → Instr) {mask : List Byte} (h : maskFits mask = true) :
    withOperand (.bytes f) (tokens (showBytes mask)) = .ok (f mask) := by
  rw [withOperand, byteList_showBytes h]
  rfl

/-- Settles O59: each command's mnemonic is in the table and its operand reads as it was
printed. -/
theorem assembleInvertsDisassemble : Obligations.AssembleInvertsDisassemble := by
  intro i h
  cases i with
  | new d0 => exact assembleLine_line (isPiece_of_all rfl rfl) rfl (withOperand_count _ d0)
  | ldu32 seed => exact assembleLine_line (isPiece_of_all rfl rfl) rfl (withOperand_seed32 _ seed)
  | ldu64 seed => exact assembleLine_line (isPiece_of_all rfl rfl) rfl (withOperand_seed64 _ seed)
  | set k => exact assembleLine_line (isPiece_of_all rfl rfl) rfl (withOperand_index _ k)
  | clr k => exact assembleLine_line (isPiece_of_all rfl rfl) rfl (withOperand_index _ k)
  | flip k => exact assembleLine_line (isPiece_of_all rfl rfl) rfl (withOperand_index _ k)
  | test k => exact assembleLine_line (isPiece_of_all rfl rfl) rfl (withOperand_index _ k)
  | and mask => exact assembleLine_line (isPiece_of_all rfl rfl) rfl (withOperand_bytes _ h)
  | or mask => exact assembleLine_line (isPiece_of_all rfl rfl) rfl (withOperand_bytes _ h)
  | xor mask => exact assembleLine_line (isPiece_of_all rfl rfl) rfl (withOperand_bytes _ h)
  | clrall | setall | not | rdu32 | rdu32s | rdu64 | rdu64s | size =>
    exact assembleLine_bare (isPiece_of_all rfl rfl) rfl

end Sys2Proof.Asm

namespace Sys2Proof.Machine

/-! ## Proofs about construction (40_construction.md)

A constructor that is not rejected ends in one way: OK, with a new vector in ARR. So each
statement rests on what the constructor wrote there, and the laws of R106 on the reads of it. -/

/-! ### What `MemWrite` stores of a seed, and `MemRead` of it (R40) -/

/-- Byte `a` after `MemWrite(0, n, v)` is bits `8a+7 : 8a` of `v`. -/
theorem read_memWrite_toNat (m : Memory) (n a : Nat) {w : Nat} (v : BitVec w) :
    (m.memWrite n v.toNat).read a = if a < n then v.extractLsb' (8 * a) 8 else m.read a := by
  rw [Memory.read_memWrite, ofNat_byte_of_toNat]

/-- `MemRead(0, n)` gives back what `MemWrite(0, n, v)` stored, when `v` fits `n` bytes. -/
theorem ofNat_memRead_memWrite (m : Memory) {n w : Nat} (v : BitVec w) (hw : w ≤ 8 * n) :
    BitVec.ofNat w ((m.memWrite n v.toNat).memRead n) = v := by
  refine BitVec.eq_of_getLsbD_eq fun j hj => ?_
  have hjn : j < 8 * n := hj.trans_le hw
  rw [BitVec.getLsbD_ofNat, testBit_memRead, getLsbD_read_memWrite m v hjn]
  simp [hj, hjn]

/-- The two payload words of a seed are its data words, low word first (R64, R77). -/
theorem payload64_append (d0 d1 : Word) : payload64 (d1 ++ d0) = [d0, d1] := by
  rw [payload64, BitVec.extractLsb'_append_eq_right, BitVec.extractLsb'_append_eq_left]

/-- The low four bytes of a 64-bit seed come from `D0`, the others from `D1` (R103). -/
theorem extractLsb'_byte_append (d0 d1 : Word) (a : Nat) :
    (d1 ++ d0).extractLsb' (8 * a) 8 =
      if a < 4 then d0.extractLsb' (8 * a) 8 else d1.extractLsb' (8 * (a - 4)) 8 := by
  split
  · exact BitVec.extractLsb'_append_eq_of_add_le (by omega)
  · rw [BitVec.extractLsb'_append_eq_of_le (by omega), Nat.mul_sub]

/-! ### What a constructor does on a running block -/

/-- A command that ended OK leaves a running block running. -/
theorem EndsOk.halt_eq {op : Nat} {payload : List Word} {s t : State}
    (h : EndsOk op payload s t) : t.halt = s.halt :=
  have ⟨_, _, _, hhalt, _⟩ := h
  hhalt

/-- Command `i` ends in an error when it is rejected. -/
theorem endsError_rejectError_commandWord (i : Instr) (cause : Cause) (info : Word) (s : State) :
    EndsError cause.code.toNat i.opcode.toNat info s
      (rejectError cause info i.commandWord s) :=
  opField_commandWord i ▸ endsError_rejectError cause info i.commandWord s

/-- A constructor within the capacity, in the terms of the statements. -/
theorem exists_constructed {i : Instr} {s : State} {m : Memory} {nb : Nat}
    (h : exec i s = .next (respond i.commandWord [] (s.withInstance m nb)))
    (hcap : nb ≤ Config.capBytes) :
    ∃ t, exec i s = .next t ∧ EndsOk i.opcode.toNat [] s t ∧
      t.length = nb ∧ t.valid = true ∧ t.arr = m :=
  ⟨_, h, opField_commandWord i ▸ endsOk_respond_withInstance i.commandWord [] s m nb,
    length_withInstance s m hcap, rfl, rfl⟩

/-- LDU32 makes a vector of four bytes (R102). -/
theorem ldu32_constructs {s : State} (hs : s.halt = false) (seed : Word) :
    ∃ t, exec (.ldu32 seed) s = .next t ∧ EndsOk 0x02 [] s t ∧
      t.length = 4 ∧ t.valid = true ∧ t.arr = s.arr.memWrite 4 seed.toNat :=
  exists_constructed (exec_ldu32_of_running hs seed)
    (le_trans (by decide) Config.eight_le_capBytes)

theorem exec_ldu64 (seed : BitVec 64) (s : State) :
    exec (.ldu64 seed) s = whileRunning s (.next (respond (Instr.ldu64 seed).commandWord []
      (s.withInstance (s.arr.memWrite 8 seed.toNat) 8))) := rfl

/-- LDU64 makes a vector of eight bytes (R103). -/
theorem ldu64_constructs {s : State} (hs : s.halt = false) (seed : BitVec 64) :
    ∃ t, exec (.ldu64 seed) s = .next t ∧ EndsOk 0x03 [] s t ∧
      t.length = 8 ∧ t.valid = true ∧ t.arr = s.arr.memWrite 8 seed.toNat :=
  exists_constructed (exec_ldu64 seed s ▸ whileRunning_of_running hs _) Config.eight_le_capBytes

/-- NEW's byte count is `ceil(n/8)` (R101, R104). -/
theorem natCast_byteCount {d0 : Word} (h : 0 < d0.toInt) :
    (byteCount d0 : Int) = (d0.toInt + 7) / 8 := by
  unfold byteCount bitCount
  omega

/-- NEW of a count that is not positive (R101). -/
theorem new_rejects_badLength {d0 : Word} {s : State} (hs : s.halt = false)
    (hn : d0.toInt ≤ 0) : ∃ t, exec (.new d0) s = .next t ∧ EndsError 5 0x01 d0 s t :=
  ⟨_, exec_new d0 s ▸ newWithin_next.mpr ⟨hs, .inl ⟨hn, rfl⟩⟩,
    endsError_rejectError_commandWord (.new d0) .badLength d0 s⟩

/-- NEW of a count past the capacity (R101). -/
theorem new_rejects_capacity {d0 : Word} {s : State} (hs : s.halt = false)
    (hn : 0 < d0.toInt) (hcap : Config.capBytes < byteCount d0) :
    ∃ t, exec (.new d0) s = .next t ∧ EndsError 6 0x01 d0 s t :=
  ⟨_, exec_new d0 s ▸ newWithin_next.mpr ⟨hs, .inr (.inl ⟨hn, hcap, rfl⟩)⟩,
    endsError_rejectError_commandWord (.new d0) .capacity d0 s⟩

/-- NEW within the capacity makes a zero vector (R101). -/
theorem new_constructs {d0 : Word} {s : State} (hs : s.halt = false) (hn : 0 < d0.toInt)
    (hcap : byteCount d0 ≤ Config.capBytes) :
    ∃ t, exec (.new d0) s = .next t ∧ EndsOk 0x01 [] s t ∧
      t.length = byteCount d0 ∧ t.valid = true ∧
      t.arr = s.arr.writeAll (fun _ => 0x00#8) (byteCount d0) :=
  exists_constructed
    (exec_new d0 s ▸ newWithin_next.mpr ⟨hs, .inr (.inr ⟨hn, hcap, rfl⟩)⟩) hcap

/-! ### The three constructors -/

/-- Settles O34: the three outcomes of NEW, told apart by the count and by `ceil(n/8)`. -/
theorem newMakesZeroVector : Obligations.NewMakesZeroVector := by
  intro d0 s hs
  refine ⟨congrArg (· :: [d0]) (commandWord_new d0), new_rejects_badLength hs,
    fun hn hlt => ?_, fun hn hle => ?_⟩
  · have hcount := natCast_byteCount hn
    exact new_rejects_capacity hs hn (by omega)
  · have hcount := natCast_byteCount hn
    obtain ⟨t, hexec, hok, hlen, hvalid, harr⟩ := new_constructs hs hn (by omega)
    refine ⟨t, hexec, hok, hlen ▸ hcount, hvalid, fun a => ?_⟩
    rw [harr, hlen, Memory.read_writeAll]

/-- Settles O35: the bytes of LDU32's vector are those `MemWrite` stores of the seed. -/
theorem ldu32LoadsSeed : Obligations.Ldu32LoadsSeed := by
  intro seed s hs
  obtain ⟨t, hexec, hok, hlen, hvalid, harr⟩ := ldu32_constructs hs seed
  refine ⟨congrArg (· :: [seed]) (commandWord_ldu32 seed), t, hexec, hok, hlen, hvalid,
    fun a => ?_⟩
  rw [harr, read_memWrite_toNat]

/-- The words of LDU64: its seed goes as `D0`, then `D1` (R64). -/
theorem encode_ldu64_append (d0 d1 : Word) :
    encode (.ldu64 (d1 ++ d0)) = [0x00000003#32, d0, d1] := by
  rw [encode_cons, commandWord_ldu64]
  exact congrArg _ (payload64_append d0 d1)

/-- Settles O36: as O35, the seed's bytes taken apart into those of `D0` and those of `D1`. -/
theorem ldu64LoadsSeed : Obligations.Ldu64LoadsSeed := by
  intro d0 d1 s hs
  obtain ⟨t, hexec, hok, hlen, hvalid, harr⟩ := ldu64_constructs hs (d1 ++ d0)
  refine ⟨encode_ldu64_append d0 d1, t, hexec, hok, hlen, hvalid, fun a => ?_⟩
  rw [harr, read_memWrite_toNat, extractLsb'_byte_append]
  by_cases h4 : a < 4
  · have h8 : a < 8 := by omega
    rw [if_pos h8, if_pos h4, if_pos h4]
  · rw [if_neg h4, if_neg h4]

/-! ### What SIZE and the conversions answer on a vector long enough for them -/

section Answers

variable {s : State} (hs : s.halt = false) (hv : s.valid = true)
include hs hv

/-- SIZE answers LEN (R200). -/
theorem size_answers : ∃ u, exec .size s = .next u ∧ EndsOk 0x50 [s.lenWord] s u :=
  ⟨_, exec_size s ▸ withInstanceOf_of_valid hs hv _ _, endsOk_respond_commandWord .size _ _⟩

/-- RDU32 and RDU32S alike (R181, R182). -/
theorem rdu32_rdu32s_answer (hlen : 4 ≤ s.length) {v : Word}
    (hread : BitVec.ofNat 32 (s.arr.memRead 4) = v) :
    (∃ u, exec .rdu32 s = .next u ∧ EndsOk 0x40 [v] s u) ∧
      ∃ u, exec .rdu32s s = .next u ∧ EndsOk 0x41 [v] s u := by
  rw [exec_rdu32, withBytes_of_le hs hv hlen, exec_rdu32s, withInstanceOf_of_valid hs hv,
    min_eq_right hlen, hread]
  exact ⟨⟨_, rfl, endsOk_respond_commandWord .rdu32 _ _⟩,
    _, rfl, endsOk_respond_commandWord .rdu32s _ _⟩

/-- RDU64 and RDU64S alike (R183, R184). -/
theorem rdu64_rdu64s_answer (hlen : 8 ≤ s.length) {v : BitVec 64}
    (hread : BitVec.ofNat 64 (s.arr.memRead 8) = v) :
    (∃ u, exec .rdu64 s = .next u ∧ EndsOk 0x42 (payload64 v) s u) ∧
      ∃ u, exec .rdu64s s = .next u ∧ EndsOk 0x43 (payload64 v) s u := by
  rw [exec_rdu64, withBytes_of_le hs hv hlen, exec_rdu64s, withInstanceOf_of_valid hs hv,
    min_eq_right hlen, hread]
  exact ⟨⟨_, rfl, endsOk_respond_commandWord .rdu64 _ _⟩,
    _, rfl, endsOk_respond_commandWord .rdu64s _ _⟩

/-- TEST of a bit of a zero byte answers 0 (R124). -/
theorem test_answers_zero {i : BitVec 24} (hi : i.toNat < 8 * s.length)
    (hzero : s.arr.read (byteIndex i) = 0x00#8) :
    ∃ u, exec (.test i) s = .next u ∧ EndsOk 0x13 [0#32] s u := by
  have hbit : s.bit i.toNat = false :=
    (congrArg (BitVec.getLsbD · (bitOffset i)) hzero).trans (BitVec.getLsbD_zero ..)
  rw [exec_test_of_lt hs hv hi, hbit]
  exact ⟨_, rfl, endsOk_respond_commandWord (.test i) _ _⟩

end Answers

/-! ### The laws of R106 -/

/-- SIZE's payload is LEN as a number (R200). -/
theorem lenWord_eq_ofNat_length (s : State) : s.lenWord = BitVec.ofNat 32 s.length :=
  (BitVec.ofNat_toNat 32 s.len).symm

/-- NEW's length is what SIZE answers, and its bits are the bits of zero bytes. -/
theorem new_then_size_and_test {s : State} (hs : s.halt = false) {d0 : Word}
    (hn : 0 < d0.toInt) (hle : d0.toInt ≤ (Config.capBits : Int)) :
    ∃ t, exec (.new d0) s = .next t ∧
      (∃ u, exec .size t = .next u ∧ EndsOk 0x50 [BitVec.ofInt 32 ((d0.toInt + 7) / 8)] t u) ∧
      ∀ i : BitVec 24, (i.toNat : Int) < 8 * ((d0.toInt + 7) / 8) →
        ∃ u, exec (.test i) t = .next u ∧ EndsOk 0x13 [0#32] t u := by
  have hcount := natCast_byteCount hn
  have hcap : byteCount d0 ≤ Config.capBytes := by
    unfold Config.capBits at hle
    omega
  obtain ⟨t, hexec, hok, hlen, hvalid, harr⟩ := new_constructs hs hn hcap
  have ht : t.halt = false := hok.halt_eq.trans hs
  refine ⟨t, hexec, ?_, fun i hi => ?_⟩
  · rw [← hcount, BitVec.ofInt_natCast, ← hlen, ← lenWord_eq_ofNat_length]
    exact size_answers ht hvalid
  · have hi8 : i.toNat < 8 * byteCount d0 := by omega
    refine test_answers_zero ht hvalid (hlen ▸ hi8) ?_
    rw [harr, Memory.read_writeAll, if_pos (byteIndex_lt hi8)]

/-- The four bytes of the seed are read back as the seed. -/
theorem ldu32_then_reads {s : State} (hs : s.halt = false) (seed : Word) :
    ∃ t, exec (.ldu32 seed) s = .next t ∧
      (∃ u, exec .rdu32 t = .next u ∧ EndsOk 0x40 [seed] t u) ∧
      ∃ u, exec .rdu32s t = .next u ∧ EndsOk 0x41 [seed] t u := by
  obtain ⟨t, hexec, hok, hlen, hvalid, harr⟩ := ldu32_constructs hs seed
  have hread : BitVec.ofNat 32 (t.arr.memRead 4) = seed :=
    harr ▸ ofNat_memRead_memWrite s.arr seed (by decide)
  exact ⟨t, hexec, rdu32_rdu32s_answer (hok.halt_eq.trans hs) hvalid hlen.ge hread⟩

/-- The eight bytes of the seed are read back as its two data words. -/
theorem ldu64_then_reads {s : State} (hs : s.halt = false) (d0 d1 : Word) :
    ∃ t, exec (.ldu64 (d1 ++ d0)) s = .next t ∧
      (∃ u, exec .rdu64 t = .next u ∧ EndsOk 0x42 [d0, d1] t u) ∧
      ∃ u, exec .rdu64s t = .next u ∧ EndsOk 0x43 [d0, d1] t u := by
  obtain ⟨t, hexec, hok, hlen, hvalid, harr⟩ := ldu64_constructs hs (d1 ++ d0)
  have hread : BitVec.ofNat 64 (t.arr.memRead 8) = d1 ++ d0 :=
    harr ▸ ofNat_memRead_memWrite s.arr (d1 ++ d0) (by decide)
  rw [← payload64_append]
  exact ⟨t, hexec, rdu64_rdu64s_answer (hok.halt_eq.trans hs) hvalid hlen.ge hread⟩

/-- Settles O52: a seed is read back as `MemWrite` stored it, and NEW's bytes are zero. -/
theorem constructionRoundTrips : Obligations.ConstructionRoundTrips :=
  fun _ hs => ⟨fun _ hn hle => new_then_size_and_test hs hn hle, ldu32_then_reads hs,
    ldu64_then_reads hs⟩

end Sys2Proof.Machine

namespace Sys2Proof.Machine

/-! ## Proofs about the per-bit commands (41_bit_ops.md)

SET, CLR and FLIP are one operation on a byte with three functions on a bit, so they end in
one way (`UpdatesBit`), and the laws of R125 are about what TEST finds after it. -/

/-! ### The faults of R120 -/

/-- Command `i` ends in a fault when it raises one. -/
theorem endsFault_raiseFault_commandWord (i : Instr) (cause : Cause) (info : Word) (s : State) :
    EndsFault cause.code.toNat i.opcode.toNat info s (raiseFault cause info i.commandWord s) :=
  opField_commandWord i ▸ endsFault_raiseFault cause info i.commandWord s

section Faults

variable {c : Instr} {i : BitVec 24} {s : State} {run : Result}

/-- A per-bit command while VALID is 0: NO_INSTANCE (R120). -/
theorem bitCommand_noInstance (hexec : exec c s = withBitIndex c.commandWord i s run)
    (hs : s.halt = false) (hv : s.valid = false) :
    ∃ t, exec c s = .next t ∧ EndsFault 2 c.opcode.toNat c.commandWord s t :=
  ⟨_, hexec.trans (withBitIndex_next.mpr ⟨hs, .inl ⟨hv, rfl⟩⟩),
    endsFault_raiseFault_commandWord c .noInstance c.commandWord s⟩

/-- A per-bit command with an index past the vector: INDEX_RANGE (R120). -/
theorem bitCommand_indexRange (hexec : exec c s = withBitIndex c.commandWord i s run)
    (hs : s.halt = false) (hv : s.valid = true) (hi : 8 * s.length ≤ i.toNat) :
    ∃ t, exec c s = .next t ∧ EndsFault 3 c.opcode.toNat (i.setWidth 32) s t :=
  ⟨_, hexec.trans (withBitIndex_next.mpr ⟨hs, .inr (.inl ⟨hv, hi, rfl⟩)⟩),
    endsFault_raiseFault_commandWord c .indexRange (indexWord i) s⟩

end Faults

/-! ### Changing one bit of a byte -/

/-- `f` changes bit `i % 8` of a byte by `g` and no other bit. -/
def ActsOnBit (i : BitVec 24) (f : Byte → Byte) (g : Bool → Bool) : Prop :=
  ∀ (v : Byte) (b : Nat), b < 8 →
    (f v).getLsbD b = if b = bitOffset i then g (v.getLsbD b) else v.getLsbD b

theorem or_bitMask_actsOnBit (i : BitVec 24) :
    ActsOnBit i (fun v => v ||| bitMask i) fun _ => true := by
  intro v b hb
  rw [BitVec.getLsbD_or, getLsbD_bitMask i b hb]
  by_cases h : b = bitOffset i <;> simp [h]

theorem andNot_bitMask_actsOnBit (i : BitVec 24) :
    ActsOnBit i (fun v => v &&& ~~~bitMask i) fun _ => false := by
  intro v b hb
  rw [BitVec.getLsbD_and, BitVec.getLsbD_not, getLsbD_bitMask i b hb]
  by_cases h : b = bitOffset i <;> simp [h, hb]

theorem xor_bitMask_actsOnBit (i : BitVec 24) :
    ActsOnBit i (fun v => v ^^^ bitMask i) fun x => !x := by
  intro v b hb
  rw [BitVec.getLsbD_xor, getLsbD_bitMask i b hb]
  by_cases h : b = bitOffset i <;> simp [h]

/-- A bit number is its byte and its bit offset (R24). -/
theorem eq_toNat_iff_byteIndex_bitOffset (i : BitVec 24) (j : Nat) :
    j = i.toNat ↔ j / 8 = byteIndex i ∧ j % 8 = bitOffset i := by
  have := byteIndex_bitOffset i
  have := bitOffset_lt i
  omega

/-- The bits after byte `i / 8` has been changed at bit `i % 8`. -/
theorem ActsOnBit.getLsbD_read_write {i : BitVec 24} {f : Byte → Byte} {g : Bool → Bool}
    (hf : ActsOnBit i f g) (m : Memory) (j : Nat) :
    ((m.write (byteIndex i) (f (m.read (byteIndex i)))).read (j / 8)).getLsbD (j % 8) =
      if j = i.toNat then g ((m.read (j / 8)).getLsbD (j % 8))
      else (m.read (j / 8)).getLsbD (j % 8) := by
  simp only [Memory.read_write, eq_toNat_iff_byteIndex_bitOffset]
  by_cases hbyte : j / 8 = byteIndex i
  · rw [if_pos hbyte, ← hbyte, hf _ _ (Nat.mod_lt j (by decide))]
    simp only [true_and]
  · simp only [hbyte, if_false, false_and]

/-- From `s` to `t` a command with opcode `op` ended OK with no payload, having changed bit
`i` of the vector by `g` and nothing else of it. -/
structure UpdatesBit (op : Nat) (i : BitVec 24) (g : Bool → Bool) (s t : State) : Prop where
  endsOk : EndsOk op [] s t
  keepsInstance : KeepsInstance s t
  bit_eq : ∀ j, t.bit j = if j = i.toNat then g (s.bit j) else s.bit j
  read_eq : ∀ a, a ≠ byteIndex i → t.arr.read a = s.arr.read a

/-! ### SET, CLR and FLIP -/

section Update

variable {c : Instr} {i : BitVec 24} {f : Byte → Byte} {g : Bool → Bool} {s : State}

/-- A command that changes one bit, on an index of the vector. -/
theorem updateBit_updatesBit (hexec : exec c s = updateBit c.commandWord i f s)
    (hf : ActsOnBit i f g) (hs : s.halt = false) (hv : s.valid = true)
    (hi : i.toNat < 8 * s.length) :
    ∃ t, exec c s = .next t ∧ UpdatesBit c.opcode.toNat i g s t := by
  refine ⟨_, hexec.trans (updateBit_next.mpr ⟨hs, .inr (.inr ⟨hv, hi, rfl⟩)⟩), ?_, ⟨rfl, rfl⟩,
    hf.getLsbD_read_write s.arr, fun a ha => Memory.read_write_ne _ _ ha⟩
  exact opField_commandWord c ▸ endsOk_respond_withArr c.commandWord [] s _

/-- The three outcomes of a command that changes one bit, in the terms of the statements. -/
theorem updateBit_outcomes (hexec : exec c s = updateBit c.commandWord i f s)
    (hf : ActsOnBit i f g) (hs : s.halt = false) :
    (s.valid = false →
      ∃ t, exec c s = .next t ∧ EndsFault 2 c.opcode.toNat c.commandWord s t) ∧
    (s.valid = true → 8 * s.length ≤ i.toNat →
      ∃ t, exec c s = .next t ∧ EndsFault 3 c.opcode.toNat (i.setWidth 32) s t) ∧
    (s.valid = true → i.toNat < 8 * s.length →
      ∃ t, exec c s = .next t ∧ EndsOk c.opcode.toNat [] s t ∧ KeepsInstance s t ∧
        (∀ j, t.bit j = if j = i.toNat then g (s.bit j) else s.bit j) ∧
        ∀ a, a ≠ byteIndex i → t.arr.read a = s.arr.read a) := by
  refine ⟨bitCommand_noInstance hexec hs, bitCommand_indexRange hexec hs, fun hv hi => ?_⟩
  obtain ⟨t, ht, hok, hkeeps, hbit, hread⟩ := updateBit_updatesBit hexec hf hs hv hi
  exact ⟨t, ht, hok, hkeeps, hbit, hread⟩

end Update

/-- Settles O37: SET is the update of one bit by OR with its mask. -/
theorem setForcesBitToOne : Obligations.SetForcesBitToOne :=
  fun i s hs => ⟨rfl, updateBit_outcomes (exec_set i s) (or_bitMask_actsOnBit i) hs⟩

/-- Settles O38: CLR is the update of one bit by AND with the complement of its mask. -/
theorem clrForcesBitToZero : Obligations.ClrForcesBitToZero :=
  fun i s hs => ⟨rfl, updateBit_outcomes (exec_clr i s) (andNot_bitMask_actsOnBit i) hs⟩

/-- Settles O39: FLIP is the update of one bit by XOR with its mask. -/
theorem flipTogglesBit : Obligations.FlipTogglesBit :=
  fun i s hs => ⟨rfl, updateBit_outcomes (exec_flip i s) (xor_bitMask_actsOnBit i) hs⟩

/-! ### TEST -/

/-- TEST of an index of the vector answers that bit and keeps the vector (R124). -/
theorem test_answers_bit {i : BitVec 24} {s : State} (hs : s.halt = false)
    (hv : s.valid = true) (hi : i.toNat < 8 * s.length) :
    ∃ t, exec (.test i) s = .next t ∧
      EndsOk 0x13 [if s.bit i.toNat then 1#32 else 0#32] s t ∧
      KeepsInstance s t ∧ t.arr = s.arr :=
  ⟨_, exec_test_of_lt hs hv hi, endsOk_respond_commandWord (.test i) _ s, ⟨rfl, rfl⟩, rfl⟩

/-- Settles O40: the faults of R120, else the bit itself. -/
theorem testAnswersBit : Obligations.TestAnswersBit :=
  fun i s hs => ⟨rfl, bitCommand_noInstance (exec_test i s) hs,
    bitCommand_indexRange (exec_test i s) hs, test_answers_bit hs⟩

/-! ### The laws of R125 -/

/-- Vectors with the same bits have the same bytes (R24). -/
theorem read_eq_of_bit_eq {s t : State} (h : ∀ j, t.bit j = s.bit j) (a : Nat) :
    t.arr.read a = s.arr.read a := by
  refine BitVec.eq_of_getLsbD_eq fun b hb => ?_
  have hdiv : (8 * a + b) / 8 = a := by omega
  have hmod : (8 * a + b) % 8 = b := by omega
  have hbit := h (8 * a + b)
  rwa [State.bit, State.bit, hdiv, hmod] at hbit

/-- What holds of some next state holds of the one that was answered. -/
theorem of_exists_next {r : Result} {P : State → Prop} {t : State}
    (h : ∃ t', r = .next t' ∧ P t') (ht : r = .next t) : P t := by
  obtain ⟨t', ht', hP⟩ := h
  rwa [next_eq_next.mp (ht'.symm.trans ht)]

section AfterUpdate

variable {op : Nat} {i j : BitVec 24} {g : Bool → Bool} {s t : State}

theorem UpdatesBit.bit_same (h : UpdatesBit op i g s t) : t.bit i.toNat = g (s.bit i.toNat) := by
  rw [h.bit_eq, if_pos rfl]

theorem UpdatesBit.bit_ne (h : UpdatesBit op i g s t) {k : Nat} (hk : k ≠ i.toNat) :
    t.bit k = s.bit k := by
  rw [h.bit_eq, if_neg hk]

/-- The checks that passed in `s` pass again in `t` (R223). -/
theorem UpdatesBit.checks (h : UpdatesBit op i g s t) (hs : s.halt = false)
    (hv : s.valid = true) : t.halt = false ∧ t.valid = true ∧ t.length = s.length := by
  obtain ⟨hlen, hvalid⟩ := h.keepsInstance
  exact ⟨h.endsOk.halt_eq.trans hs, hvalid.trans hv, congrArg BitVec.toNat hlen⟩

/-- TEST after a change of one bit answers the bit as it then is. -/
theorem UpdatesBit.test_answers (h : UpdatesBit op i g s t) (hs : s.halt = false)
    (hv : s.valid = true) (hj : j.toNat < 8 * s.length) :
    ∃ u, exec (.test j) t = .next u ∧
      EndsOk 0x13 [if t.bit j.toNat then 1#32 else 0#32] t u := by
  obtain ⟨ht, htv, hlen⟩ := h.checks hs hv
  obtain ⟨u, hu, hok, -⟩ := test_answers_bit ht htv (hlen ▸ hj)
  exact ⟨u, hu, hok⟩

end AfterUpdate

section Laws

variable {i : BitVec 24} {s : State} (hs : s.halt = false) (hv : s.valid = true)
  (hi : i.toNat < 8 * s.length)
include hs hv hi

theorem set_updatesBit :
    ∃ t, exec (.set i) s = .next t ∧ UpdatesBit 0x10 i (fun _ => true) s t :=
  updateBit_updatesBit (exec_set i s) (or_bitMask_actsOnBit i) hs hv hi

theorem clr_updatesBit :
    ∃ t, exec (.clr i) s = .next t ∧ UpdatesBit 0x11 i (fun _ => false) s t :=
  updateBit_updatesBit (exec_clr i s) (andNot_bitMask_actsOnBit i) hs hv hi

theorem flip_updatesBit :
    ∃ t, exec (.flip i) s = .next t ∧ UpdatesBit 0x12 i (fun x => !x) s t :=
  updateBit_updatesBit (exec_flip i s) (xor_bitMask_actsOnBit i) hs hv hi

/-- TEST of the bit just changed answers what it was changed to. -/
theorem update_then_test {c : Instr} {op : Nat} {g : Bool → Bool}
    (h : ∃ t, exec c s = .next t ∧ UpdatesBit op i g s t) :
    ∃ t u, exec c s = .next t ∧ exec (.test i) t = .next u ∧
      EndsOk 0x13 [if g (s.bit i.toNat) then 1#32 else 0#32] t u := by
  obtain ⟨t, ht, hupdate⟩ := h
  obtain ⟨u, hu, hok⟩ := hupdate.test_answers hs hv hi
  rw [hupdate.bit_same] at hok
  exact ⟨t, u, ht, hu, hok⟩

/-- FLIP twice restores every bit, so every byte. -/
theorem flip_then_flip :
    ∃ t u, exec (.flip i) s = .next t ∧ exec (.flip i) t = .next u ∧
      ∀ a, u.arr.read a = s.arr.read a := by
  obtain ⟨t, ht, hfirst⟩ := flip_updatesBit hs hv hi
  obtain ⟨hthalt, htvalid, hlen⟩ := hfirst.checks hs hv
  obtain ⟨u, hu, hsecond⟩ := flip_updatesBit hthalt htvalid (hlen ▸ hi)
  refine ⟨t, u, ht, hu, read_eq_of_bit_eq fun j => ?_⟩
  by_cases hj : j = i.toNat
  · rw [hj, hsecond.bit_same, hfirst.bit_same, Bool.not_not]
  · rw [hsecond.bit_ne hj, hfirst.bit_ne hj]

/-- Whichever of SET, CLR and FLIP answered, it updated bit `i`. -/
theorem exists_updatesBit {t : State}
    (h : exec (.set i) s = .next t ∨ exec (.clr i) s = .next t ∨ exec (.flip i) s = .next t) :
    ∃ op g, UpdatesBit op i g s t := by
  rcases h with h | h | h
  · exact ⟨_, _, of_exists_next (set_updatesBit hs hv hi) h⟩
  · exact ⟨_, _, of_exists_next (clr_updatesBit hs hv hi) h⟩
  · exact ⟨_, _, of_exists_next (flip_updatesBit hs hv hi) h⟩

/-- SET `i` does not change what TEST of another index answers. -/
theorem test_after_set_of_ne {j : BitVec 24} (hne : j ≠ i) (hj : j.toNat < 8 * s.length) :
    ∃ t u v answer, exec (.set i) s = .next t ∧ exec (.test j) s = .next u ∧
      exec (.test j) t = .next v ∧ EndsOk 0x13 [answer] s u ∧ EndsOk 0x13 [answer] t v := by
  obtain ⟨t, ht, hset⟩ := set_updatesBit hs hv hi
  obtain ⟨u, hu, hbefore, -⟩ := test_answers_bit hs hv hj
  obtain ⟨v, hv', hafter⟩ := hset.test_answers hs hv hj
  rw [hset.bit_ne (mt BitVec.eq_of_toNat_eq hne)] at hafter
  exact ⟨t, u, v, _, ht, hu, hv', hbefore, hafter⟩

end Laws

/-- Settles O53: each law reads the bits that the first command left. -/
theorem perBitLaws : Obligations.PerBitLaws := by
  intro i s hs hv hi
  refine ⟨update_then_test hs hv hi (set_updatesBit hs hv hi),
    update_then_test hs hv hi (clr_updatesBit hs hv hi), flip_then_flip hs hv hi,
    fun t h j hj => ?_, fun j => test_after_set_of_ne hs hv hi⟩
  obtain ⟨op, g, hupdate⟩ := exists_updatesBit hs hv hi h
  exact hupdate.bit_ne hj

end Sys2Proof.Machine

namespace Sys2Proof.Machine

/-! ## Proofs about the bulk commands (42_bulk_ops.md)

A bulk command replaces each byte of the vector by a function of it, as the mask commands do.
So both end in one way (`UpdatesBytes`), and the laws of R144 compare such functions byte by
byte. -/

/-- An opcode whose ARG is reserved (R70), on a running block. -/
theorem argMustBeZero_of_mem {op : BitVec 8} (hop : op ∈ opsWithReservedArg) {s : State}
    (hs : s.halt = false) : ArgMustBeZero op s := by
  rintro w rest rfl harg hrx hin
  exact reservedArgFaults.1 w rest s hop harg hs hrx hin

/-- The checks that passed before a command that ended OK and kept the instance pass again
after it (R223). -/
theorem EndsOk.checks {op : Nat} {payload : List Word} {s t : State} (h : EndsOk op payload s t)
    (hkeeps : KeepsInstance s t) (hs : s.halt = false) (hv : s.valid = true) :
    t.halt = false ∧ t.valid = true ∧ t.length = s.length := by
  obtain ⟨hlen, hvalid⟩ := hkeeps
  exact ⟨h.halt_eq.trans hs, hvalid.trans hv, congrArg BitVec.toNat hlen⟩

/-! ### Changing every byte of the vector -/

/-- From `s` to `t` a command with opcode `op` ended OK with no payload, having changed byte
`a` of the vector by `f a`, for each `a` below LEN, and nothing else of ARR. -/
structure UpdatesBytes (op : Nat) (f : Nat → Byte → Byte) (s t : State) : Prop where
  endsOk : EndsOk op [] s t
  keepsInstance : KeepsInstance s t
  read_eq : ∀ a, t.arr.read a = if a < s.length then f a (s.arr.read a) else s.arr.read a

section UpdateAll

variable {c : Instr} {f : Nat → Byte → Byte} {s : State}

/-- A bulk or a mask command while VALID is 0: NO_INSTANCE (R140, R160). -/
theorem updateAll_noInstance (hexec : exec c s = updateAll c.commandWord f s)
    (hs : s.halt = false) (hv : s.valid = false) :
    ∃ t, exec c s = .next t ∧ EndsFault 2 c.opcode.toNat c.commandWord s t :=
  ⟨_, hexec.trans (updateAll_next.mpr ⟨hs, .inl ⟨hv, rfl⟩⟩),
    endsFault_raiseFault_commandWord c .noInstance c.commandWord s⟩

/-- A bulk or a mask command with an instance. -/
theorem updateAll_updatesBytes (hexec : exec c s = updateAll c.commandWord f s)
    (hs : s.halt = false) (hv : s.valid = true) :
    ∃ t, exec c s = .next t ∧ UpdatesBytes c.opcode.toNat f s t := by
  refine ⟨_, hexec.trans (updateAll_next.mpr ⟨hs, .inr ⟨hv, rfl⟩⟩), ?_, ⟨rfl, rfl⟩,
    Memory.read_writeAll s.arr _ s.length⟩
  exact opField_commandWord c ▸ endsOk_respond_withArr c.commandWord [] s _

/-- All that the statements say of a command that changes every byte and has no operand. -/
theorem updateAll_outcomes (hexec : exec c s = updateAll c.commandWord f s) {w : Word}
    (hw : c.commandWord = w) (hdata : c.dataWords = []) (hop : c.opcode ∈ opsWithReservedArg)
    (hs : s.halt = false) :
    encode c = [w] ∧ ArgMustBeZero c.opcode s ∧
    (s.valid = false → ∃ t, exec c s = .next t ∧ EndsFault 2 c.opcode.toNat w s t) ∧
    (s.valid = true → ∃ t, exec c s = .next t ∧ EndsOk c.opcode.toNat [] s t ∧
      KeepsInstance s t ∧
      ∀ a, t.arr.read a = if a < s.length then f a (s.arr.read a) else s.arr.read a) := by
  subst hw
  refine ⟨congrArg _ hdata, argMustBeZero_of_mem hop hs, updateAll_noInstance hexec hs,
    fun hv => ?_⟩
  obtain ⟨t, ht, hok, hkeeps, hread⟩ := updateAll_updatesBytes hexec hs hv
  exact ⟨t, ht, hok, hkeeps, hread⟩

end UpdateAll

/-! ### CLRALL, SETALL and NOT -/

/-- `v XOR 0xFF` is the complement of a byte (R143). -/
theorem xor_0xFF_eq_not (v : Byte) : v ^^^ 0xFF#8 = ~~~v := BitVec.xor_allOnes

/-- NOT as the complement of every byte. -/
theorem exec_not_complement (s : State) :
    exec .not s = updateAll Instr.not.commandWord (fun _ v => ~~~v) s := by
  simp only [exec_not, xor_0xFF_eq_not]

/-- Settles O41: CLRALL changes every byte to 0x00. -/
theorem clrallClearsVector : Obligations.ClrallClearsVector :=
  fun s hs => updateAll_outcomes (exec_clrall s) commandWord_clrall rfl (by decide) hs

/-- Settles O42: SETALL changes every byte to 0xFF. -/
theorem setallSetsVector : Obligations.SetallSetsVector :=
  fun s hs => updateAll_outcomes (exec_setall s) commandWord_setall rfl (by decide) hs

/-- Settles O43: NOT changes every byte to its complement. -/
theorem notComplementsVector : Obligations.NotComplementsVector :=
  fun s hs => updateAll_outcomes (exec_not_complement s) commandWord_not rfl (by decide) hs

/-! ### The laws of R144 -/

section AfterUpdateAll

variable {c d : Instr} {f g : Nat → Byte → Byte} {s : State} (hs : s.halt = false)
  (hv : s.valid = true)
include hs hv

/-- TEST after a change of every byte answers the bit of the byte that the change made. -/
theorem updateAll_then_test (hexec : exec c s = updateAll c.commandWord f s) {i : BitVec 24}
    (hi : i.toNat < 8 * s.length) {b : Bool}
    (hbit : (f (byteIndex i) (s.arr.read (byteIndex i))).getLsbD (bitOffset i) = b) :
    ∃ t u, exec c s = .next t ∧ exec (.test i) t = .next u ∧
      EndsOk 0x13 [if b then 1#32 else 0#32] t u := by
  obtain ⟨t, ht, hupdate⟩ := updateAll_updatesBytes hexec hs hv
  obtain ⟨hthalt, htvalid, hlen⟩ := hupdate.endsOk.checks hupdate.keepsInstance hs hv
  obtain ⟨u, hu, hok, -⟩ := test_answers_bit hthalt htvalid (hlen ▸ hi)
  have hread := (hupdate.read_eq (byteIndex i)).trans (if_pos (byteIndex_lt hi))
  have htbit : t.bit i.toNat = b := (congrArg (BitVec.getLsbD · (bitOffset i)) hread).trans hbit
  exact ⟨t, u, ht, hu, htbit ▸ hok⟩

/-- Changing every byte twice. -/
theorem updateAll_twice (hexec : ∀ s, exec c s = updateAll c.commandWord f s) :
    ∃ t u, exec c s = .next t ∧ exec c t = .next u ∧
      ∀ a, u.arr.read a = if a < s.length then f a (f a (s.arr.read a)) else s.arr.read a := by
  obtain ⟨t, ht, hfirst⟩ := updateAll_updatesBytes (hexec s) hs hv
  obtain ⟨hthalt, htvalid, hlen⟩ := hfirst.endsOk.checks hfirst.keepsInstance hs hv
  obtain ⟨u, hu, hsecond⟩ := updateAll_updatesBytes (hexec t) hthalt htvalid
  refine ⟨t, u, ht, hu, fun a => ?_⟩
  rw [hsecond.read_eq, hfirst.read_eq, hlen]
  by_cases ha : a < s.length
  · simp only [if_pos ha]
  · simp only [if_neg ha]

/-- Two commands that change each byte of the vector alike leave the same vector. -/
theorem updateAll_same_vector (hc : exec c s = updateAll c.commandWord f s)
    (hd : exec d s = updateAll d.commandWord g s)
    (hfg : ∀ a, a < s.length → ∀ v, f a v = g a v) :
    ∃ t u, exec c s = .next t ∧ exec d s = .next u ∧
      KeepsInstance t u ∧ ∀ a, t.arr.read a = u.arr.read a := by
  obtain ⟨t, ht, -, ⟨htlen, htvalid⟩, htread⟩ := updateAll_updatesBytes hc hs hv
  obtain ⟨u, hu, -, ⟨hulen, huvalid⟩, huread⟩ := updateAll_updatesBytes hd hs hv
  refine ⟨t, u, ht, hu, ⟨hulen.trans htlen.symm, huvalid.trans htvalid.symm⟩, fun a => ?_⟩
  rw [htread, huread]
  exact ite_congr rfl (fun ha => hfg a ha _) fun _ => rfl

end AfterUpdateAll

/-- Every bit of the byte 0xFF is 1. -/
theorem getLsbD_0xFF (i : BitVec 24) : (0xFF#8).getLsbD (bitOffset i) = true :=
  BitVec.getLsbD_allOnes.trans (decide_eq_true (bitOffset_lt i))

/-- NOT does to a byte what XOR does with a mask of `n` bytes 0xFF that reaches it. -/
theorem xor_0xFF_eq_xor_maskByte {n a : Nat} (ha : a < n) (v : Byte) :
    v ^^^ 0xFF#8 = v ^^^ maskByte (List.replicate n 0xFF#8) a := by
  rw [maskByte, List.getD_replicate _ ha]

/-- CLRALL does to a byte what AND does with the empty mask: a missing mask byte is zero. -/
theorem zero_eq_and_maskByte_nil (v : Byte) (a : Nat) : 0x00#8 = v &&& maskByte [] a := by
  rw [maskByte_of_le (Nat.zero_le a), BitVec.and_zero]

/-- Settles O54: each law compares what the commands make of one byte. -/
theorem bulkLaws : Obligations.BulkLaws := by
  intro s hs hv
  refine ⟨fun i hi => ?clrall, fun i hi => ?setall, ?notTwice, ?notXor, ?clrallAnd⟩
  case clrall =>
    exact updateAll_then_test hs hv (exec_clrall s) hi (b := false) (BitVec.getLsbD_zero ..)
  case setall =>
    exact updateAll_then_test hs hv (exec_setall s) hi (b := true) (getLsbD_0xFF i)
  case notTwice =>
    obtain ⟨t, u, ht, hu, hread⟩ := updateAll_twice hs hv exec_not_complement
    refine ⟨t, u, ht, hu, fun a => ?_⟩
    rw [hread, BitVec.not_not, ite_self]
  case notXor =>
    exact updateAll_same_vector hs hv (exec_not s) (exec_xor _ s) fun _ => xor_0xFF_eq_xor_maskByte
  case clrallAnd =>
    exact updateAll_same_vector hs hv (exec_clrall s) (exec_and [] s) fun a _ v =>
      zero_eq_and_maskByte_nil v a

end Sys2Proof.Machine

namespace Sys2Proof.Machine

/-! ## Proofs about the mask commands (43_mask_ops.md)

AND, OR and XOR change every byte of the vector by its mask byte, so they end as the bulk
commands do (`UpdatesBytes`).  What is their own is the mask byte: zero past the mask, and
not read at or past LEN (R160). -/

/-! ### The mask byte (R160, R166) -/

theorem maskByte_eq_ite (mask : List Byte) (a : Nat) :
    maskByte mask a = if a < mask.length then mask.getD a 0#8 else 0#8 := by
  by_cases ha : a < mask.length
  · rw [if_pos ha, maskByte]
  · rw [if_neg ha, maskByte_of_le (not_lt.mp ha)]

/-- AND with a missing mask byte makes 0. -/
theorem and_maskByte (v : Byte) (mask : List Byte) (a : Nat) :
    v &&& maskByte mask a = if a < mask.length then v &&& mask.getD a 0#8 else 0#8 := by
  rw [maskByte_eq_ite, apply_ite (v &&& ·), BitVec.and_zero]

/-- OR with a missing mask byte changes nothing. -/
theorem or_maskByte (v : Byte) (mask : List Byte) (a : Nat) :
    v ||| maskByte mask a = if a < mask.length then v ||| mask.getD a 0#8 else v := by
  rw [maskByte_eq_ite, apply_ite (v ||| ·), BitVec.or_zero]

/-- XOR with a missing mask byte changes nothing. -/
theorem xor_maskByte (v : Byte) (mask : List Byte) (a : Nat) :
    v ^^^ maskByte mask a = if a < mask.length then v ^^^ mask.getD a 0#8 else v := by
  rw [maskByte_eq_ite, apply_ite (v ^^^ ·), BitVec.xor_zero]

/-- A mask cut to `n` bytes keeps its bytes below `n`. -/
theorem maskByte_take {a n : Nat} (ha : a < n) (mask : List Byte) :
    maskByte (mask.take n) a = maskByte mask a :=
  getD_take_of_lt mask ha 0x00#8

/-! ### AND, OR and XOR -/

/-- All that the statements say of a mask command with command word `w`, where `r a` is the
byte that the change `f` leaves at `a`. -/
theorem maskCommand_outcomes {c : Instr} {f : Nat → Byte → Byte} {s : State}
    (hexec : exec c s = updateAll c.commandWord f s) {w : Word} (hw : c.commandWord = w)
    {r : Nat → Byte}
    (hr : ∀ a, (if a < s.length then f a (s.arr.read a) else s.arr.read a) = r a)
    (hs : s.halt = false) :
    (encode c).head? = some w ∧
    (s.valid = false → ∃ t, exec c s = .next t ∧ EndsFault 2 c.opcode.toNat w s t) ∧
    (s.valid = true → ∃ t, exec c s = .next t ∧ EndsOk c.opcode.toNat [] s t ∧
      KeepsInstance s t ∧ ∀ a, t.arr.read a = r a) := by
  subst hw
  refine ⟨rfl, updateAll_noInstance hexec hs, fun hv => ?_⟩
  obtain ⟨t, ht, hok, hkeeps, hread⟩ := updateAll_updatesBytes hexec hs hv
  exact ⟨t, ht, hok, hkeeps, fun a => (hread a).trans (hr a)⟩

/-- Settles O44: past the mask AND makes 0. -/
theorem andCombinesWithMask : Obligations.AndCombinesWithMask :=
  fun mask s hs => maskCommand_outcomes (exec_and mask s) rfl
    (fun a => by rw [and_maskByte]) hs

/-- Settles O45: past the mask OR changes nothing, as past LEN. -/
theorem orCombinesWithMask : Obligations.OrCombinesWithMask :=
  fun mask s hs => maskCommand_outcomes (exec_or mask s) rfl
    (fun a => by rw [or_maskByte, ← ite_and]) hs

/-- Settles O46: past the mask XOR changes nothing, as past LEN. -/
theorem xorCombinesWithMask : Obligations.XorCombinesWithMask :=
  fun mask s hs => maskCommand_outcomes (exec_xor mask s) rfl
    (fun a => by rw [xor_maskByte, ← ite_and]) hs

/-! ### The laws of R165 -/

/-- Byte `a` of the vector after a change of every byte. -/
theorem UpdatesBytes.read_of_lt {op : Nat} {f : Nat → Byte → Byte} {s t : State}
    (h : UpdatesBytes op f s t) {a : Nat} (ha : a < s.length) :
    t.arr.read a = f a (s.arr.read a) :=
  (h.read_eq a).trans (if_pos ha)

/-- Bit `j` of the vector after a change of every byte: a bit of the changed byte (R24). -/
theorem UpdatesBytes.bit_of_lt {op : Nat} {f : Nat → Byte → Byte} {s t : State}
    (h : UpdatesBytes op f s t) {j : Nat} (hj : j < 8 * s.length) :
    t.bit j = (f (j / 8) (s.arr.read (j / 8))).getLsbD (j % 8) :=
  congrArg (BitVec.getLsbD · (j % 8)) (h.read_of_lt (Nat.div_lt_of_lt_mul hj))

/-- A change that is idempotent on every byte: doing it twice leaves what once leaves. -/
theorem updateAll_idempotent {c : Instr} {f : Nat → Byte → Byte} {s : State}
    (hs : s.halt = false) (hv : s.valid = true)
    (hexec : ∀ s, exec c s = updateAll c.commandWord f s)
    (hidem : ∀ a v, f a (f a v) = f a v) :
    ∃ t u, exec c s = .next t ∧ exec c t = .next u ∧ ∀ a, u.arr.read a = t.arr.read a := by
  obtain ⟨t, u, ht, hu, hread⟩ := updateAll_twice hs hv hexec
  have honce := of_exists_next (updateAll_updatesBytes (hexec s) hs hv) ht
  refine ⟨t, u, ht, hu, fun a => ?_⟩
  rw [hread, honce.read_eq, hidem]

/-- Settles O55: each law is the law of the operator on one byte. -/
theorem maskLaws : Obligations.MaskLaws := by
  intro mask s hs hv
  obtain ⟨t, ht, hand⟩ := updateAll_updatesBytes (exec_and mask s) hs hv
  obtain ⟨u, hu, hor⟩ := updateAll_updatesBytes (exec_or mask s) hs hv
  obtain ⟨w, hw, hxor⟩ := updateAll_updatesBytes (exec_xor mask s) hs hv
  refine ⟨fun _ => ⟨⟨t, ht, fun _ => hand.read_of_lt⟩, ⟨u, hu, fun _ => hor.read_of_lt⟩,
    ⟨w, hw, fun _ => hxor.read_of_lt⟩, fun j hj => ⟨t, u, w, ht, hu, hw, ?andBit, ?orBit,
    ?xorBit⟩⟩, ?xorTwice, ?andTwice, ?orTwice⟩
  case andBit => exact (hand.bit_of_lt hj).trans BitVec.getLsbD_and
  case orBit => exact (hor.bit_of_lt hj).trans BitVec.getLsbD_or
  case xorBit => exact (hxor.bit_of_lt hj).trans BitVec.getLsbD_xor
  case xorTwice =>
    obtain ⟨once, twice, honce, htwice, hread⟩ := updateAll_twice hs hv (exec_xor mask)
    refine ⟨once, twice, honce, htwice, fun a => ?_⟩
    rw [hread, BitVec.xor_assoc, BitVec.xor_self, BitVec.xor_zero, ite_self]
  case andTwice =>
    refine updateAll_idempotent hs hv (exec_and mask) fun a v => ?_
    rw [BitVec.and_assoc, BitVec.and_self]
  case orTwice =>
    refine updateAll_idempotent hs hv (exec_or mask) fun a v => ?_
    rw [BitVec.or_assoc, BitVec.or_self]

/-! ### Mask bytes at and past LEN (R160) -/

/-- Two commands that change each byte of the vector alike: where one answers a next state,
a fault included, the other answers one with the same instance. -/
theorem updateAll_same_vector_of_next {c d : Instr} {f g : Nat → Byte → Byte} {s t : State}
    (hc : exec c s = updateAll c.commandWord f s) (hd : exec d s = updateAll d.commandWord g s)
    (hfg : ∀ a, a < s.length → ∀ v, f a v = g a v) (ht : exec c s = .next t) :
    ∃ u, exec d s = .next u ∧ KeepsInstance t u ∧ ∀ a, u.arr.read a = t.arr.read a := by
  obtain ⟨hs, -⟩ := updateAll_next.mp (hc.symm.trans ht)
  cases hv : s.valid with
  | false =>
    obtain ⟨-, -, -, -, -, -, htarr, htlen, htvalid⟩ :=
      of_exists_next (updateAll_noInstance hc hs hv) ht
    obtain ⟨u, hu, -, -, -, -, -, -, huarr, hulen, huvalid⟩ := updateAll_noInstance hd hs hv
    exact ⟨u, hu, ⟨hulen.trans htlen.symm, huvalid.trans htvalid.symm⟩,
      fun a => congrArg (·.read a) (huarr.trans htarr.symm)⟩
  | true =>
    obtain ⟨t', u, ht', hu, hkeeps, hread⟩ := updateAll_same_vector hs hv hc hd hfg
    obtain rfl := next_eq_next.mp (ht'.symm.trans ht)
    exact ⟨u, hu, hkeeps, fun a => (hread a).symm⟩

/-- A mask command that combines each byte with its mask byte by `op`, its mask cut to LEN
bytes: below LEN the mask bytes are the same. -/
theorem maskCommand_take_length {f : List Byte → Instr} {op : Byte → Byte → Byte} {s t : State}
    (hexec : ∀ mask, exec (f mask) s =
      updateAll (f mask).commandWord (fun a v => op v (maskByte mask a)) s)
    {mask : List Byte} (ht : exec (f mask) s = .next t) :
    ∃ u, exec (f (mask.take s.length)) s = .next u ∧ KeepsInstance t u ∧
      ∀ a, u.arr.read a = t.arr.read a :=
  updateAll_same_vector_of_next (hexec mask) (hexec _)
    (fun _ ha v => congrArg (op v) (maskByte_take ha mask).symm) ht

/-- Settles O56, for the three operators. -/
theorem extraMaskBytesUnused : Obligations.ExtraMaskBytesUnused := by
  rintro mask f s t - (rfl | rfl | rfl) ht
  · exact maskCommand_take_length (op := (· &&& ·)) (exec_and · s) ht
  · exact maskCommand_take_length (op := (· ||| ·)) (exec_or · s) ht
  · exact maskCommand_take_length (op := (· ^^^ ·)) (exec_xor · s) ht

end Sys2Proof.Machine

namespace Sys2Proof.Machine

/-! ## Proofs about the integer conversions (44_int_conversion.md)

All four reads answer bytes of one vector, the one of this state with zero bytes past LEN
(`State.zeroFilled`), and the unchecked two of them fault where such a byte would be needed. So
the laws of R185 compare bytes and bits of that vector. -/

/-! ### The checks and the answer of a command without operand -/

section BareCommands

variable {c : Instr} {run : Result} {payload : List Word} {w : Word} {s : State}

/-- All that the statements say of a command without operand before it has an instance: its
word, its reserved ARG (R70) and NO_INSTANCE (R180). -/
theorem bareCommand_checks (hexec : exec c s = withInstanceOf c.commandWord s run)
    (hw : c.commandWord = w) (hdata : c.dataWords = []) (hop : c.opcode ∈ opsWithReservedArg)
    (hs : s.halt = false) :
    encode c = [w] ∧ ArgMustBeZero c.opcode s ∧
    (s.valid = false → ∃ t, exec c s = .next t ∧ EndsFault 2 c.opcode.toNat w s t) := by
  subst hw
  refine ⟨congrArg _ hdata, argMustBeZero_of_mem hop hs, fun hv => ?_⟩
  exact ⟨_, hexec.trans (withInstanceOf_next.mpr ⟨hs, .inl ⟨hv, rfl⟩⟩),
    endsFault_raiseFault_commandWord c .noInstance c.commandWord s⟩

/-- An unchecked read of a vector shorter than `n` bytes: SHORT_READ (R181, R183). -/
theorem withBytes_shortRead {n : Nat} (hexec : exec c s = withBytes n c.commandWord s run)
    (hs : s.halt = false) (hv : s.valid = true) (hlen : s.length < n) :
    ∃ t, exec c s = .next t ∧ EndsFault 4 c.opcode.toNat (BitVec.ofNat 32 s.length) s t := by
  rw [← lenWord_eq_ofNat_length]
  exact ⟨_, hexec.trans (withBytes_next.mpr ⟨hs, .inr (.inl ⟨hv, hlen, rfl⟩)⟩),
    endsFault_raiseFault_commandWord c .shortRead s.lenWord s⟩

/-- A command that only answers ends OK and keeps the vector (R48). -/
theorem answer_keeps_vector (hexec : exec c s = .next (respond c.commandWord payload s)) :
    ∃ t, exec c s = .next t ∧ EndsOk c.opcode.toNat payload s t ∧ KeepsInstance s t ∧
      t.arr = s.arr :=
  ⟨_, hexec, endsOk_respond_commandWord c payload s, ⟨rfl, rfl⟩, rfl⟩

end BareCommands

/-! ### `MemRead` byte by byte, and of missing bytes -/

/-- `MemRead(0, 8)` is the high four bytes beside the low four (R183). -/
theorem memRead_eight (m : Memory) :
    BitVec.ofNat 64 (m.memRead 8) =
      (m.read 7 ++ m.read 6 ++ m.read 5 ++ m.read 4) ++
        (m.read 3 ++ m.read 2 ++ m.read 1 ++ m.read 0) := by
  apply BitVec.eq_of_toNat_eq
  have h := m.memRead_lt 8
  rw [BitVec.toNat_ofNat, Nat.mod_eq_of_lt (by simpa using h)]
  simp only [toNat_append_eq, Memory.memRead]
  ring

/-- The payload of a 64-bit read: bytes 3 to 0, then bytes 7 to 4 (R77, R183). -/
theorem payload64_memRead_eight (m : Memory) :
    payload64 (BitVec.ofNat 64 (m.memRead 8)) =
      [m.read 3 ++ m.read 2 ++ m.read 1 ++ m.read 0,
        m.read 7 ++ m.read 6 ++ m.read 5 ++ m.read 4] := by
  rw [memRead_eight]
  exact payload64_append _ _

/-- Byte `k` as RDU32S and RDU64S take it: that of the vector, or zero past LEN (R182, R184). -/
def State.zeroFilled (s : State) (k : Nat) : Byte :=
  if k < s.length then s.arr.read k else 0x00#8

/-- Reading as many of the first `n` bytes as there are is reading `n` zero-filled ones. -/
theorem memRead_min_length (s : State) (n : Nat) :
    s.arr.memRead (min s.length n) = (s.arr.writeAll s.zeroFilled n).memRead n := by
  refine Nat.eq_of_testBit_eq fun j => ?_
  rw [testBit_memRead, testBit_memRead, Memory.read_writeAll, State.zeroFilled]
  by_cases hn : j / 8 < n
  · by_cases hlen : j / 8 < s.length
    · simp [hn, hlen, show j < 8 * min s.length n by omega, show j < 8 * n by omega]
    · simp [hn, hlen, show ¬ j < 8 * min s.length n by omega]
  · simp [show ¬ j < 8 * min s.length n by omega, show ¬ j < 8 * n by omega]

/-- RDU32S's word is the first four zero-filled bytes (R182). -/
theorem memRead_four_zeroFilled (s : State) :
    BitVec.ofNat 32 (s.arr.memRead (min s.length 4)) =
      s.zeroFilled 3 ++ s.zeroFilled 2 ++ s.zeroFilled 1 ++ s.zeroFilled 0 := by
  rw [memRead_min_length, memRead_four]
  simp [Memory.read_writeAll]

/-- RDU64S's words are the first eight zero-filled bytes (R184). -/
theorem payload64_memRead_zeroFilled (s : State) :
    payload64 (BitVec.ofNat 64 (s.arr.memRead (min s.length 8))) =
      [s.zeroFilled 3 ++ s.zeroFilled 2 ++ s.zeroFilled 1 ++ s.zeroFilled 0,
        s.zeroFilled 7 ++ s.zeroFilled 6 ++ s.zeroFilled 5 ++ s.zeroFilled 4] := by
  rw [memRead_min_length, payload64_memRead_eight]
  simp [Memory.read_writeAll]

/-! ### The four reads -/

/-- Settles O47: the check of four bytes, else `MemRead(0, 4)`. -/
theorem rdu32ReadsFourBytes : Obligations.Rdu32ReadsFourBytes := by
  intro s hs
  obtain ⟨hencode, harg, hnoInstance⟩ :=
    bareCommand_checks (exec_rdu32 s) commandWord_rdu32 rfl (by decide) hs
  refine ⟨hencode, harg, hnoInstance, withBytes_shortRead (exec_rdu32 s) hs, fun hv hlen => ?_⟩
  rw [← memRead_four]
  exact answer_keeps_vector (exec_rdu32 s ▸ withBytes_of_le hs hv hlen _ _)

/-- Settles O48: no check of the length, and `MemRead` of the zero-filled bytes. -/
theorem rdu32sZeroFills : Obligations.Rdu32sZeroFills := by
  intro s b hs hb
  obtain rfl : b = s.zeroFilled := funext hb
  obtain ⟨hencode, harg, hnoInstance⟩ :=
    bareCommand_checks (exec_rdu32s s) commandWord_rdu32s rfl (by decide) hs
  refine ⟨hencode, harg, hnoInstance, fun hv => ?_⟩
  rw [← memRead_four_zeroFilled]
  exact answer_keeps_vector (exec_rdu32s s ▸ withInstanceOf_of_valid hs hv _ _)

/-- Settles O49: the check of eight bytes, else the two halves of `MemRead(0, 8)`. -/
theorem rdu64ReadsEightBytes : Obligations.Rdu64ReadsEightBytes := by
  intro s hs
  obtain ⟨hencode, harg, hnoInstance⟩ :=
    bareCommand_checks (exec_rdu64 s) commandWord_rdu64 rfl (by decide) hs
  refine ⟨hencode, harg, hnoInstance, withBytes_shortRead (exec_rdu64 s) hs, fun hv hlen => ?_⟩
  rw [← payload64_memRead_eight]
  exact answer_keeps_vector (exec_rdu64 s ▸ withBytes_of_le hs hv hlen _ _)

/-- Settles O50: as O48, with eight bytes. -/
theorem rdu64sZeroFills : Obligations.Rdu64sZeroFills := by
  intro s b hs hb
  obtain rfl : b = s.zeroFilled := funext hb
  obtain ⟨hencode, harg, hnoInstance⟩ :=
    bareCommand_checks (exec_rdu64s s) commandWord_rdu64s rfl (by decide) hs
  refine ⟨hencode, harg, hnoInstance, fun hv => ?_⟩
  rw [← payload64_memRead_zeroFilled]
  exact answer_keeps_vector (exec_rdu64s s ▸ withInstanceOf_of_valid hs hv _ _)

/-! ### The laws of R185 -/

section ConversionLaws

variable {s : State} (hs : s.halt = false)
include hs

/-- RDU32 and RDU32S after LDU32. -/
theorem ldu32_then_rdu32_rdu32s (seed : Word) :
    ∃ t u v, exec (.ldu32 seed) s = .next t ∧
      exec .rdu32 t = .next u ∧ EndsOk 0x40 [seed] t u ∧
      exec .rdu32s t = .next v ∧ EndsOk 0x41 [seed] t v := by
  obtain ⟨t, ht, ⟨u, hu, huok⟩, v, hv, hvok⟩ := ldu32_then_reads hs seed
  exact ⟨t, u, v, ht, hu, huok, hv, hvok⟩

/-- RDU64 and RDU64S after LDU64. -/
theorem ldu64_then_rdu64_rdu64s (d0 d1 : Word) :
    ∃ t u v, exec (.ldu64 (d1 ++ d0)) s = .next t ∧
      exec .rdu64 t = .next u ∧ EndsOk 0x42 [d0, d1] t u ∧
      exec .rdu64s t = .next v ∧ EndsOk 0x43 [d0, d1] t v := by
  obtain ⟨t, ht, ⟨u, hu, huok⟩, v, hv, hvok⟩ := ldu64_then_reads hs d0 d1
  exact ⟨t, u, v, ht, hu, huok, hv, hvok⟩

variable (hv : s.valid = true)
include hv

theorem rdu32_agrees_rdu32s (hlen : 4 ≤ s.length) :
    ∃ t u answer, exec .rdu32 s = .next t ∧ EndsOk 0x40 answer s t ∧
      exec .rdu32s s = .next u ∧ EndsOk 0x41 answer s u := by
  obtain ⟨⟨t, ht, htok⟩, u, hu, huok⟩ := rdu32_rdu32s_answer hs hv hlen rfl
  exact ⟨t, u, _, ht, htok, hu, huok⟩

theorem rdu64_agrees_rdu64s (hlen : 8 ≤ s.length) :
    ∃ t u answer, exec .rdu64 s = .next t ∧ EndsOk 0x42 answer s t ∧
      exec .rdu64s s = .next u ∧ EndsOk 0x43 answer s u := by
  obtain ⟨⟨t, ht, htok⟩, u, hu, huok⟩ := rdu64_rdu64s_answer hs hv hlen rfl
  exact ⟨t, u, _, ht, htok, hu, huok⟩

/-- RDU32S answers the first four zero-filled bytes (R182). -/
theorem rdu32s_answers_zeroFilled :
    ∃ t, exec .rdu32s s = .next t ∧
      EndsOk 0x41 [s.zeroFilled 3 ++ s.zeroFilled 2 ++ s.zeroFilled 1 ++ s.zeroFilled 0] s t := by
  obtain ⟨-, -, -, answers⟩ := rdu32sZeroFills s s.zeroFilled hs fun _ => rfl
  obtain ⟨t, ht, hok, -⟩ := answers hv
  exact ⟨t, ht, hok⟩

/-- RDU32S answers the low word of RDU64S: the same four zero-filled bytes. -/
theorem rdu32s_low_word_of_rdu64s :
    ∃ t u lo hi, exec .rdu32s s = .next t ∧ EndsOk 0x41 [lo] s t ∧
      exec .rdu64s s = .next u ∧ EndsOk 0x43 [lo, hi] s u := by
  obtain ⟨t, ht, htok⟩ := rdu32s_answers_zeroFilled hs hv
  obtain ⟨-, -, -, answers⟩ := rdu64sZeroFills s s.zeroFilled hs fun _ => rfl
  obtain ⟨u, hu, huok, -⟩ := answers hv
  exact ⟨t, u, _, _, ht, htok, hu, huok⟩

/-- The vector `[0x34, 0x12]` reads 0x1234. -/
theorem rdu32s_reads_0x1234 (hlen : s.length = 2) (h0 : s.arr.read 0 = 0x34#8)
    (h1 : s.arr.read 1 = 0x12#8) :
    ∃ t, exec .rdu32s s = .next t ∧ EndsOk 0x41 [0x1234#32] s t := by
  have answers := rdu32s_answers_zeroFilled hs hv
  simpa [State.zeroFilled, hlen, h0, h1] using answers

/-- Bit `j` of RDU32S's answer is bit `j` of the vector, or 0 past it (R24, R43). -/
theorem rdu32s_answers_bits :
    ∃ t answer, exec .rdu32s s = .next t ∧ EndsOk 0x41 [answer] s t ∧
      ∀ j, answer.getLsbD j = (decide (j < min 32 (8 * s.length)) && s.bit j) := by
  refine ⟨_, _, exec_rdu32s s ▸ withInstanceOf_of_valid hs hv _ _,
    endsOk_respond_commandWord .rdu32s _ s, fun j => ?_⟩
  have hbound : j < min 32 (8 * s.length) ↔ j < 32 ∧ j < 8 * min s.length 4 := by omega
  rw [BitVec.getLsbD_ofNat, testBit_memRead, ← Bool.and_assoc, ← Bool.decide_and,
    ← decide_eq_decide.mpr hbound]
  rfl

/-- TEST answers the bits of RDU32S's answer, which is 0 past the vector. -/
theorem rdu32s_bits_agree_test :
    ∃ t answer, exec .rdu32s s = .next t ∧ EndsOk 0x41 [answer] s t ∧
      (∀ j : BitVec 24, j.toNat < min 32 (8 * s.length) → ∃ u, exec (.test j) s = .next u ∧
        EndsOk 0x13 [if answer.getLsbD j.toNat then 1#32 else 0#32] s u) ∧
      ∀ j, min 32 (8 * s.length) ≤ j → answer.getLsbD j = false := by
  obtain ⟨t, answer, ht, hok, hbits⟩ := rdu32s_answers_bits hs hv
  refine ⟨t, answer, ht, hok, fun j hj => ?_, fun j hj => ?_⟩
  · obtain ⟨u, hu, huok, -⟩ := test_answers_bit hs hv (hj.trans_le (min_le_right _ _))
    rw [hbits, decide_eq_true hj, Bool.true_and]
    exact ⟨u, hu, huok⟩
  · rw [hbits, decide_eq_false (Nat.not_lt.mpr hj), Bool.false_and]

end ConversionLaws

/-- Settles O57, each law by its lemma above. -/
theorem conversionLaws : Obligations.ConversionLaws :=
  fun _ hs => ⟨ldu32_then_rdu32_rdu32s hs, ldu64_then_rdu64_rdu64s hs, rdu32_agrees_rdu32s hs,
    rdu64_agrees_rdu64s hs, rdu32s_low_word_of_rdu64s hs, rdu32s_reads_0x1234 hs,
    rdu32s_bits_agree_test hs⟩

end Sys2Proof.Machine

namespace Sys2Proof.Machine

/-! ## Proofs about the size query (45_size.md) -/

/-- Settles O51: no check past the instance, the answer is LEN, and LEN is not 0 by the
invariant's clause on instances. -/
theorem sizeAnswersByteLength : Obligations.SizeAnswersByteLength := by
  intro s hs
  obtain ⟨hencode, harg, hnoInstance⟩ :=
    bareCommand_checks (exec_size s) commandWord_size rfl (by decide) hs
  refine ⟨hencode, harg, hnoInstance, fun hv => ?_⟩
  rw [← lenWord_eq_ofNat_length]
  obtain ⟨t, ht, hok, hkeeps, harr⟩ :=
    answer_keeps_vector (exec_size s ▸ withInstanceOf_of_valid hs hv _ _)
  exact ⟨t, ht, hok, hkeeps, harr, fun inv => inv.len_pos hv⟩

end Sys2Proof.Machine

namespace Sys2Proof.Machine

/-! ## Proofs about exceptions (60_exceptions.md)

How a command ends (R220 to R225), and what a halted and an idle block do (R227, R228, R238).
A command is one of R223's checks around its effect, so that it ends in one of R220's three
ways is shown first of the three ends and then of each check. -/

/-! ### The three outcomes of a command (R220) -/

/-- `r` answers a next state in which command `i` on `s` has ended OK with R77's payload, or has
ended in an error or a fault that R222 gives it. -/
def EndsOneWay (i : Instr) (s : State) (r : Result) : Prop :=
  ∃ t, r = .next t ∧
    ((∃ payload, payload.length = payloadLength i ∧ EndsOk i.opcode.toNat payload s t) ∨
     (∃ cause info, mayReject i cause info ∧ EndsError cause i.opcode.toNat info s t) ∨
     (∃ cause info, mayFault i s cause info ∧ EndsFault cause i.opcode.toNat info s t))

section Outcomes

variable {i : Instr} {s t : State}

theorem endsOneWay_of_endsOk {payload : List Word} (hlen : payload.length = payloadLength i)
    (hok : EndsOk i.opcode.toNat payload s t) : EndsOneWay i s (.next t) :=
  ⟨t, rfl, .inl ⟨payload, hlen, hok⟩⟩

theorem endsOneWay_respond {payload : List Word} (hlen : payload.length = payloadLength i) :
    EndsOneWay i s (.next (respond i.commandWord payload s)) :=
  endsOneWay_of_endsOk hlen (endsOk_respond_commandWord i payload s)

theorem endsOneWay_respond_withArr (hlen : payloadLength i = 0) (m : Memory) :
    EndsOneWay i s (.next (respond i.commandWord [] (s.withArr m))) :=
  endsOneWay_of_endsOk (payload := []) hlen.symm
    (opField_commandWord i ▸ endsOk_respond_withArr i.commandWord [] s m)

theorem endsOneWay_respond_withInstance (hlen : payloadLength i = 0) (m : Memory) (nb : Nat) :
    EndsOneWay i s (.next (respond i.commandWord [] (s.withInstance m nb))) :=
  endsOneWay_of_endsOk (payload := []) hlen.symm
    (opField_commandWord i ▸ endsOk_respond_withInstance i.commandWord [] s m nb)

theorem endsOneWay_rejectError (c : Cause) {info : Word} (h : mayReject i c.code.toNat info) :
    EndsOneWay i s (.next (rejectError c info i.commandWord s)) :=
  ⟨_, rfl, .inr (.inl ⟨_, info, h, endsError_rejectError_commandWord i c info s⟩)⟩

theorem endsOneWay_raiseFault (c : Cause) {info : Word} (h : mayFault i s c.code.toNat info) :
    EndsOneWay i s (.next (raiseFault c info i.commandWord s)) :=
  ⟨_, rfl, .inr (.inr ⟨_, info, h, endsFault_raiseFault_commandWord i c info s⟩)⟩

/-- NO_INSTANCE is a cause of every command but the constructors, with `INFO = W` (R222). -/
theorem mayFault_noInstance (hi : isConstructor i = false) : mayFault i s 2 i.commandWord := by
  cases i with
  | new | ldu32 | ldu64 => cases hi
  | set | clr | flip | test | rdu32 | rdu64 => exact .inl ⟨rfl, rfl⟩
  | clrall | setall | not | and | or | xor | rdu32s | rdu64s | size => exact ⟨rfl, rfl⟩

end Outcomes

/-! ### What stands behind a check of R223 ends in one way, and so do the shared effects -/

section Checks

variable {i : Instr} {s : State} (hs : s.halt = false)
include hs

theorem whileRunning_endsOneWay {run : Result} (hrun : EndsOneWay i s run) :
    EndsOneWay i s (whileRunning s run) := by
  rwa [whileRunning_of_running hs]

variable (hi : isConstructor i = false)
include hi

theorem withInstanceOf_endsOneWay {run : Result} (hrun : EndsOneWay i s run) :
    EndsOneWay i s (withInstanceOf i.commandWord s run) := by
  rw [withInstanceOf_of_running hs]
  split
  · exact hrun
  · exact endsOneWay_raiseFault .noInstance (mayFault_noInstance hi)

theorem withBitIndex_endsOneWay {k : BitVec 24} (hrange : mayFault i s 3 (k.setWidth 32))
    {run : Result} (hrun : EndsOneWay i s run) :
    EndsOneWay i s (withBitIndex i.commandWord k s run) := by
  refine withInstanceOf_endsOneWay hs hi ?_
  split
  · exact hrun
  · exact endsOneWay_raiseFault .indexRange hrange

theorem withBytes_endsOneWay {n : Nat} (hshort : mayFault i s 4 (s.len.setWidth 32))
    {run : Result} (hrun : EndsOneWay i s run) :
    EndsOneWay i s (withBytes n i.commandWord s run) := by
  refine withInstanceOf_endsOneWay hs hi ?_
  split
  · exact endsOneWay_raiseFault .shortRead hshort
  · exact hrun

theorem updateBit_endsOneWay {k : BitVec 24} {f : Byte → Byte}
    (hexec : exec i s = updateBit i.commandWord k f s)
    (hrange : mayFault i s 3 (k.setWidth 32)) (hlen : payloadLength i = 0) :
    EndsOneWay i s (exec i s) :=
  hexec ▸ withBitIndex_endsOneWay hs hi hrange (endsOneWay_respond_withArr hlen _)

theorem updateAll_endsOneWay {f : Nat → Byte → Byte}
    (hexec : exec i s = updateAll i.commandWord f s) (hlen : payloadLength i = 0) :
    EndsOneWay i s (exec i s) :=
  hexec ▸ withInstanceOf_endsOneWay hs hi (endsOneWay_respond_withArr hlen _)

end Checks

/-- NEW's errors are BAD_LENGTH and CAPACITY, with `INFO = D0` (R101, R222). -/
theorem newWithin_endsOneWay {s : State} (hs : s.halt = false) (cap : Nat) (d0 : Word) :
    EndsOneWay (.new d0) s (newWithin cap d0 s) := by
  refine whileRunning_endsOneWay hs ?_
  split
  · exact endsOneWay_rejectError .badLength ⟨.inl rfl, rfl⟩
  · split
    · exact endsOneWay_rejectError .capacity ⟨.inr rfl, rfl⟩
    · exact endsOneWay_respond_withInstance rfl _ _

/-- Settles O28: each command is a check of R223 around an effect, and its row of R222 has the
causes of that check. -/
theorem everyCommandEndsOneWay : Obligations.EveryCommandEndsOneWay := by
  intro i s hs
  change EndsOneWay i s (exec i s)
  cases i with
  | new d0 => exact newWithin_endsOneWay hs _ d0
  | ldu32 | ldu64 => exact whileRunning_endsOneWay hs (endsOneWay_respond_withInstance rfl _ _)
  | set k => exact updateBit_endsOneWay hs rfl (exec_set k s) (.inr ⟨rfl, rfl⟩) rfl
  | clr k => exact updateBit_endsOneWay hs rfl (exec_clr k s) (.inr ⟨rfl, rfl⟩) rfl
  | flip k => exact updateBit_endsOneWay hs rfl (exec_flip k s) (.inr ⟨rfl, rfl⟩) rfl
  | test k =>
    exact withBitIndex_endsOneWay (i := .test k) hs rfl (.inr ⟨rfl, rfl⟩) (endsOneWay_respond rfl)
  | clrall => exact updateAll_endsOneWay hs rfl (exec_clrall s) rfl
  | setall => exact updateAll_endsOneWay hs rfl (exec_setall s) rfl
  | not => exact updateAll_endsOneWay hs rfl (exec_not s) rfl
  | and mask => exact updateAll_endsOneWay hs rfl (exec_and mask s) rfl
  | or mask => exact updateAll_endsOneWay hs rfl (exec_or mask s) rfl
  | xor mask => exact updateAll_endsOneWay hs rfl (exec_xor mask s) rfl
  | rdu32 =>
    exact withBytes_endsOneWay (i := .rdu32) hs rfl (.inr ⟨rfl, rfl⟩) (endsOneWay_respond rfl)
  | rdu64 =>
    exact withBytes_endsOneWay (i := .rdu64) hs rfl (.inr ⟨rfl, rfl⟩) (endsOneWay_respond rfl)
  | rdu32s | rdu64s | size => exact withInstanceOf_endsOneWay hs rfl (endsOneWay_respond rfl)

/-! ### Halted and idle blocks (R227, R228, R238) -/

/-- Settles O10: a halted block fetches nothing but a reset. -/
theorem haltedBlockIsStuck : Obligations.HaltedBlockIsStuck := by
  intro s hs
  refine ⟨fun hr => ?_, fun t h => ?_⟩
  · rw [step, fetch_halted hs hr]
  · obtain ⟨hr, rfl⟩ := step_eq_resetBlock_of_halted h hs
    exact ⟨hr, afterReset_resetBlock s _⟩

/-- R223's check 1 stands before all that a command does. -/
theorem exec_eq_whileRunning (i : Instr) (s : State) :
    ∃ run, exec i s = whileRunning s run := by
  cases i with
  | new | ldu32 | ldu64 | set | clr | flip | test | clrall | setall | not | and | or | xor
  | rdu32 | rdu32s | rdu64 | rdu64s | size => exact ⟨_, rfl⟩

/-- Settles O11: check 1 of R223 stops the command. -/
theorem noCommandExecutesWhileHalted : Obligations.NoCommandExecutesWhileHalted := by
  intro i s hs
  obtain ⟨run, hexec⟩ := exec_eq_whileRunning i s
  rw [hexec, whileRunning_of_halted hs]

/-- Settles O15: the block fetches the state it is in. -/
theorem idleBlockKeepsState : Obligations.IdleBlockKeepsState := by
  intro s hs hin
  rw [step, fetch_idle hs hin]

/-! ### Taking a fault and rejecting a command (R224, R225) -/

/-- OP is the low byte of the command word (R61). -/
theorem toNat_opField (w : Word) : (opField w).toNat = w.toNat % 256 := by
  simp [opField]

/-- Settles O26: all but the response is what `raiseFault` writes or leaves, and the response
word is R76's formula with the OP of `w`. -/
theorem faultEntryHaltsAndReports : Obligations.FaultEntryHaltsAndReports := by
  intro cause info w s
  refine ⟨rfl, rfl, rfl, rfl, ?_, rfl, rfl, rfl, rfl⟩
  rw [raiseFault_respOut, responseWord_fault, toNat_opField, responseValue]

/-- Settles O27: as O26, for `rejectError`. -/
theorem errorEntryReportsAndRunsOn : Obligations.ErrorEntryReportsAndRunsOn := by
  intro cause info w s
  refine ⟨rfl, rfl, ?_, rfl, rfl, rfl, rfl, rfl, rfl⟩
  rw [rejectError_respOut, responseWord_error, toNat_opField, responseValue]

end Sys2Proof.Machine

namespace Sys2Proof.Machine

/-! ## Proofs about reset and hazards (70_reset_and_hazards.md)

What a reset makes of the block (R260, R261, R263), what the commands do before there is an
instance (R264), and that every complete command finishes (R272). -/

/-! ### A command finishes, and a running block has a step (R272) -/

/-- However a command ends (R220), its words are gone from RXBUF and its response has left. -/
theorem exec_empties_rxbuf_and_responds (i : Instr) {s : State} (hs : s.halt = false) :
    ∃ t r payload, exec i s = .next t ∧ t.rxbuf = [] ∧ t.respOut = s.respOut ++ r :: payload := by
  obtain ⟨t, hexec, ⟨payload, -, hresp, hrxbuf, -⟩ | ⟨_, info, -, hresp, hrxbuf, -⟩ |
    ⟨_, info, -, hresp, hrxbuf, -⟩⟩ := everyCommandEndsOneWay i s hs
  · exact ⟨t, _, payload, hexec, hrxbuf, hresp⟩
  · exact ⟨t, _, [info], hexec, hrxbuf, hresp⟩
  · exact ⟨t, _, [info], hexec, hrxbuf, hresp⟩

/-- A running block takes any word: it holds it, faults on it, or runs the command it
completes. -/
theorem exists_step_word {s : State} {w : Word} {rest : List HostEvent} (hs : s.halt = false)
    (hin : s.hostIn = .word w :: rest) : ∃ t, step s = .next t := by
  cases hdec : decode (s.rxbuf ++ [w]) with
  | illegal why c => exact ⟨_, step_of_illegal hs hin hdec⟩
  | incomplete => exact ⟨_, step_of_incomplete hs hin hdec⟩
  | complete i more =>
    rw [step_of_complete hs hin hdec]
    obtain ⟨t, _, _, hexec, -⟩ := exec_empties_rxbuf_and_responds i
      (s := (s.withHostIn rest).withRxbuf (s.rxbuf ++ [w])) hs
    exact ⟨t, hexec⟩

/-- A reset that is next is taken, halted or not (R260). -/
theorem step_of_reset {s : State} {rest : List HostEvent} (hin : s.hostIn = .reset :: rest) :
    step s = .next (resetBlock (s.withHostIn rest)) := by
  cases hs : s.halt with
  | false => rw [step, fetch_reset hs hin]
  | true =>
    have hmem : HostEvent.reset ∈ s.hostIn := hin ▸ List.mem_cons_self
    rw [step, fetch_halted_reset hs hmem, hin, List.erase_cons_head]

/-- Settles O18: by what is at the ports for a step, and by R220's three outcomes (O28) for a
command. -/
theorem noCommandHangs : Obligations.NoCommandHangs := by
  intro s hs
  refine ⟨?_, fun i => exec_empties_rxbuf_and_responds i hs⟩
  cases hin : s.hostIn with
  | nil => exact ⟨s, idleBlockKeepsState s hs hin⟩
  | cons e rest =>
    cases e with
    | reset => exact ⟨_, step_of_reset hin⟩
    | word w => exact exists_step_word hs hin

/-! ### Without an instance (R264) -/

/-- R223's check 3 stands, after check 1, before all that a command but a constructor does. -/
theorem exec_eq_withInstanceOf {i : Instr} (hi : isConstructor i = false) (s : State) :
    ∃ run, exec i s = withInstanceOf i.commandWord s run := by
  cases i with
  | new | ldu32 | ldu64 => cases hi
  | set | clr | flip | test | clrall | setall | not | and | or | xor
  | rdu32 | rdu32s | rdu64 | rdu64s | size => exact ⟨_, rfl⟩

/-- Settles O29: check 3 of R223 raises NO_INSTANCE. -/
theorem commandsNeedAnInstance : Obligations.CommandsNeedAnInstance := by
  intro i s hi hs hv
  obtain ⟨run, hexec⟩ := exec_eq_withInstanceOf hi s
  exact ⟨_, hexec.trans (withInstanceOf_next.mpr ⟨hs, .inl ⟨hv, rfl⟩⟩),
    endsFault_raiseFault_commandWord i .noInstance i.commandWord s⟩

/-! ### Reset and power-on (R260, R261, R263) -/

/-- Settles O12: the step is `resetBlock`, which leaves what R260 and R261 say. -/
theorem resetRestoresEveryRegister : Obligations.ResetRestoresEveryRegister :=
  fun rest s hin => ⟨_, step_of_reset hin, afterReset_resetBlock s rest⟩

/-- A reset clears STATUS, whose fields it clears (R25, R260). -/
theorem AfterReset.status_eq_zero {es : List HostEvent} {s t : State} (h : AfterReset es s t) :
    t.status = 0#8 := by
  obtain ⟨-, hvalid, hhalt, hcause, -⟩ := h
  rw [State.status, hvalid, hhalt, hcause]
  decide

/-- Power-on is a reset: the first state is what a reset makes of itself (R263). -/
theorem afterReset_reset : AfterReset [] State.reset State.reset :=
  afterReset_resetBlock State.reset []

/-- Settles O14: the first state is that of a reset. -/
theorem firstStateIsReset : Obligations.FirstStateIsReset := by
  obtain ⟨hlen, hvalid, hhalt, hcause, hinfo, hrxbuf, -⟩ := afterReset_reset
  exact ⟨hlen, hvalid, hhalt, hcause, hinfo, hrxbuf, afterReset_reset.status_eq_zero⟩

end Sys2Proof.Machine

namespace Sys2Proof.Machine

/-! ## ARR over a reset (70_reset_and_hazards.md section 1, log entry 9) -/

/-- Settles O13: the step is `resetBlock`, which keeps ARR, of the block with the reset taken
off what the host offers. -/
theorem resetLeavesArrayAlone : Obligations.ResetLeavesArrayAlone := by
  intro rest s t hin hstep
  rw [step_of_reset hin] at hstep
  obtain rfl := next_eq_next.mp hstep
  rw [resetBlock_arr, State.withHostIn_arr]

end Sys2Proof.Machine
